-- ==== Sys2Proof/Word.lean ====
section
/-! DEFINITION. The word types of the codec's ports (10_state.md R16, R17; 00_scope.md R6, R7).

Bit 0 is the least significant bit of every word (R7). -/

namespace Sys2Proof

/-- The bit pattern of a binary64 value: bit 63 the sign, bits 62:52 the biased exponent, bits 51:0 the fraction
(00_scope.md R8, 30_encoding.md R31). -/
abbrev Bits64 := BitVec 64

/-- A packed decimal word (30_encoding.md R35). -/
abbrev Packed := BitVec 16

/-- A byte of a stored or transmitted packed word (20_memory.md R23). -/
abbrev Byte := BitVec 8

end Sys2Proof
end

