-- ==== Sys2Proof/Config.lean ====
section
/-! DEFINITION. What an implementation fixes (00_scope.md R6) and the values the spec leaves open.

An `opaque` constant has no value that a proof can see: whatever is proved holds for every value of it. -/

namespace Sys2Proof

/-- The two byte orders a serializer may choose for a packed word (20_memory.md R23, 92_eei_decisions.md D12). -/
inductive ByteOrder where
  | little
  | big
deriving DecidableEq, Repr, Inhabited

namespace Config

/-- Number of buckets of the dispatch ROM (00_scope.md R6). -/
abbrev bucketCount : Nat := 31

/-- Number of entries of the multiplier ROM (00_scope.md R6). -/
abbrev multEntries : Nat := 32

/-- The decoder's bias (00_scope.md R6, 41_decode.md R73). -/
abbrev bias : Int := 15

/-- The multiplier ROM's index offset: entry `k` stands for `10^(k - 17)` (00_scope.md R6, 10_state.md R13). -/
abbrev tableOffset : Int := 17

/-- `SERIAL_BYTE_ORDER` (00_scope.md R6): open, owned by whatever serializes packed words. Log entry 13. -/
opaque serialByteOrder : ByteOrder

/-- `ENC_LATENCY` (70_reset_and_hazards.md R104): open; no rule reads it. Log entry 13. -/
opaque encLatency : Nat

/-- `DEC_LATENCY` (70_reset_and_hazards.md R104): open; no rule reads it. Log entry 13. -/
opaque decLatency : Nat

/-- FREE VALUE, DESIGN CHOICE (log entry 7), safe: the product of two patterns of which one is infinite or a NaN.
00_scope.md R8 gives `f64` no real value there. -/
opaque fmulNonFinite : Bits64 → Bits64 → Bits64

/-- FREE VALUE, DESIGN CHOICE (log entry 7), safe: the integer an infinite or NaN pattern rounds to.
40_encode.md R57 speaks of `f64(v)`, which 00_scope.md R8 does not give there. -/
opaque roundNonFinite : Bits64 → Int

/-- FREE VALUE, DESIGN CHOICE (log entry 7), safe: the magnitude bits of `RN` of the ratio of two numbers, where it
lies beyond the largest finite binary64 by half a unit or more. 00_scope.md R8 does not say what `RN` gives there. -/
opaque rnBeyondRange : Nat → Nat → BitVec 63

end Config
end Sys2Proof
end

