-- ==== Sys2Proof/Machine/Float.lean ====
section
/-! DEFINITION. The binary64 primitives of 00_scope.md R8, in exact integer arithmetic.

A finite pattern's magnitude is kept as a ratio of two natural numbers, so that products and comparisons are exact and
`RN` rounds once. `f64` is the real (rational) value itself, for claims. -/

namespace Sys2Proof.Machine

/-- `b[63]`, the sign (00_scope.md R8). -/
def signBit (b : Bits64) : Bool := b.getLsbD 63

/-- `b[62:52]`, the biased exponent (00_scope.md R8). -/
def expField (b : Bits64) : Nat := (b.extractLsb' 52 11).toNat

/-- `b[51:0]`, the fraction (00_scope.md R8). -/
def fracField (b : Bits64) : Nat := (b.extractLsb' 0 52).toNat

/-- `NaN(b)` (00_scope.md R8). -/
def isNaN (b : Bits64) : Bool := expField b == 0x7FF && fracField b != 0

/-- `Inf(b)` (00_scope.md R8). -/
def isInf (b : Bits64) : Bool := expField b == 0x7FF && fracField b == 0

/-- The pattern has a real value: it is neither infinite nor a NaN (00_scope.md R8). -/
def isFinite (b : Bits64) : Bool := expField b != 0x7FF

/-- A subnormal: biased exponent 0 and a fraction that is not (40_encode.md R63). -/
def isSubnormal (b : Bits64) : Bool := expField b == 0 && fracField b != 0

/-- The integer significand of a finite pattern: the fraction, with the leading 1 of a normal value. -/
def significand (b : Bits64) : Nat :=
  if expField b = 0 then fracField b else 2 ^ 52 + fracField b

/-- The power of two that the significand of a finite pattern is multiplied by. -/
def unitExponent (b : Bits64) : Int := (max 1 (expField b) : Nat) - 1075

/-- `n · 2^u` for `u ≥ 0`, and `n` for `u < 0`: half of a multiplication by a power of two, the other half being in the
denominator of the ratio. -/
def scaleUp (n : Nat) (u : Int) : Nat := n * 2 ^ u.toNat

/-- Numerator of the magnitude of a finite pattern. -/
def magNum (b : Bits64) : Nat := scaleUp (significand b) (unitExponent b)

/-- Denominator of the magnitude of a finite pattern. -/
def magDen (b : Bits64) : Nat := scaleUp 1 (-unitExponent b)

/-- Numerator of the signed value of a finite pattern. -/
def signedNum (b : Bits64) : Int := if signBit b then -(magNum b : Int) else magNum b

/-- `f64(b)`, the real value of a finite pattern (00_scope.md R8). -/
def f64 (b : Bits64) : ℚ := (signedNum b : ℚ) / (magDen b : ℚ)

/-- The integer `L` with `2^L ≤ num/den < 2^(L+1)`, for positive `num` and `den`. -/
def floorLog2 (num den : Nat) : Int :=
  let l : Int := (Nat.log2 num : Int) - (Nat.log2 den : Int)
  if scaleUp den l ≤ scaleUp num (-l) then l else l - 1

/-- The integer nearest `n/d`; on a tie the even one (00_scope.md R8). -/
def nearestEvenInt (n d : Nat) : Nat :=
  let q := n / d
  let r := n % d
  if d < 2 * r ∨ (2 * r = d ∧ q % 2 = 1) then q + 1 else q

/-- The exponent of the last place of the binary64 values around `num/den`: 52 below its leading bit, and not below
that of the subnormals. -/
def lastPlace (num den : Nat) : Int := max (floorLog2 num den - 52) (-1074)

/-- The magnitude bits of `RN(num/den)` as a number: the nearest multiple of the last place, ties to even. A carry out
of the fraction lands in the exponent field. -/
def rnBits (num den : Nat) : Nat :=
  if num = 0 then 0
  else
    let u := lastPlace num den
    (u + 1074).toNat * 2 ^ 52 + nearestEvenInt (scaleUp num (-u)) (scaleUp den u)

/-- `RN(num/den)` for a nonnegative real: the 63 magnitude bits of the nearest binary64 value, ties to even
(00_scope.md R8). Beyond the largest finite value by half a unit or more it is a free value (log entry 7). -/
def rn (num den : Nat) : BitVec 63 :=
  let bits := rnBits num den
  if bits < 0x7FF0000000000000 then BitVec.ofNat 63 bits else Config.rnBeyondRange num den

/-- The pattern with the given sign bit and magnitude bits. -/
def withSign (sign : Bool) (mag : BitVec 63) : Bits64 := BitVec.ofBool sign ++ mag

/-- `fmul(a, b) = RN(f64(a) × f64(b))`; the sign is the XOR of the operand signs (00_scope.md R8). With an infinite or
NaN operand it is a free value (log entry 7). -/
def fmul (a b : Bits64) : Bits64 :=
  if isFinite a && isFinite b then
    withSign (signBit a ^^ signBit b) (rn (magNum a * magNum b) (magDen a * magDen b))
  else Config.fmulNonFinite a b

/-- `bits64(m)` of a natural number (00_scope.md R8, 41_decode.md R75). -/
def bits64OfNat (m : Nat) : Bits64 := withSign false (rn m 1)

/-- Negation of a binary64 value: its sign bit flipped (41_decode.md R76). -/
def negate (b : Bits64) : Bits64 := b ^^^ 0x8000000000000000#64

/-- The absolute value as the encoder forms it: `zext_64(x[62:0])` (40_encode.md R52). -/
def absBits (x : Bits64) : Bits64 := (x.extractLsb' 0 63).setWidth 64

/-- `round_half_up(v) = floor(f64(v)) + ((f64(v) - floor(f64(v)) >= 1/2) ? 1 : 0)`, in exact arithmetic
(40_encode.md R50, R57). A free value where `v` is infinite or a NaN (log entry 7). -/
def roundHalfUp (v : Bits64) : Int :=
  if isFinite v then
    let n := signedNum v
    let d : Int := magDen v
    n / d + (if d ≤ 2 * (n % d) then 1 else 0)
  else Config.roundNonFinite v

end Sys2Proof.Machine
end

