-- ==== Sys2Proof/Machine/Operands.lean ====
section
/-! DEFINITION. The fields of a packed word and the decoder's index arithmetic on them (30_encoding.md R35, R36, R37;
41_decode.md R71 to R75). -/

namespace Sys2Proof.Machine

/-- `el = p & 0xF`, the exponent magnitude (30_encoding.md R36, 41_decode.md R71). -/
def exponentIndex (p : Packed) : Nat := (p &&& 0xF#16).toNat

/-- `es = p[4]`, the exponent sign: set for a negative exponent (30_encoding.md R35). -/
def exponentSign (p : Packed) : Bool := p.getLsbD 4

/-- `c = p[4:0]`, the exponent code (30_encoding.md R36). -/
def exponentCode (p : Packed) : BitVec 5 := p.extractLsb' 0 5

/-- `s = p[5]`, the value sign: set for a negative value (30_encoding.md R35). -/
def valueSign (p : Packed) : Bool := p.getLsbD 5

/-- `m = p >> 6`, the magnitude (30_encoding.md R36, 41_decode.md R75). -/
def magnitude (p : Packed) : Nat := (p >>> 6).toNat

/-- `p = (m[9:0] << 6) | (s << 5) | c[4:0]` (30_encoding.md R36, 40_encode.md R59). -/
def pack (m : BitVec 10) (s : Bool) (c : BitVec 5) : Packed :=
  (m.setWidth 16 <<< 6) ||| ((BitVec.ofBool s).setWidth 16 <<< 5) ||| c.setWidth 16

/-- `i = es ? -el : el`, the sign-magnitude index, in -15..15 (30_encoding.md R37, 41_decode.md R72). -/
def signedIndex (p : Packed) : Int :=
  if exponentSign p then -(exponentIndex p : Int) else exponentIndex p

/-- `b = i + 15`, the biased exponent, in 0..30 (41_decode.md R73). -/
def biasedIndex (p : Packed) : Int := signedIndex p + Config.bias

/-- `k = b & 31`, the multiplier ROM's index (41_decode.md R74). On an integer the mask is the remainder modulo 32. -/
def tableIndex (p : Packed) : Fin Config.multEntries :=
  ⟨(biasedIndex p % 32).toNat, by
    have h0 := Int.emod_nonneg (biasedIndex p) (show (32 : Int) ≠ 0 by decide)
    have h1 := Int.emod_lt_of_pos (biasedIndex p) (show (0 : Int) < 32 by decide)
    show (biasedIndex p % 32).toNat < 32
    omega⟩

/-- `E = k - 17`, the decoded exponent: the power of ten the decoder multiplies by (30_encoding.md R37). -/
def decodedExponent (p : Packed) : Int := ((tableIndex p).val : Int) - Config.tableOffset

end Sys2Proof.Machine
end

