-- ==== Sys2Proof/Syntax.lean ====
section
/-! DEFINITION. The operations of the codec and the requests that select them (30_encoding.md R30). -/

namespace Sys2Proof

/-- One constructor per row of spec/opcode_table.json. Every operand pattern is accepted (30_encoding.md R43). -/
inductive Instr where
  /-- ENCODE: the binary64 pattern on `enc_x` (30_encoding.md R31, 40_encode.md R50). -/
  | encode (x : Bits64)
  /-- DECODE: the packed word on `dec_p` (30_encoding.md R33, 41_decode.md R70). -/
  | decode (p : Packed)
deriving DecidableEq, Repr

/-- The lines that carry a request: the 1-bit select and the two units' input ports. The operand travels on the input
port of the selected unit (30_encoding.md R30); the other unit does not read its port. -/
structure Request where
  /-- The operation select: 0 is ENCODE, 1 is DECODE (30_encoding.md R30). -/
  op : BitVec 1
  /-- The encoder's input port (10_state.md R16). -/
  encX : Bits64
  /-- The decoder's input port (10_state.md R17). -/
  decP : Packed
deriving DecidableEq, Repr

/-- Why a string of bits is no request (20_memory.md R24, 30_encoding.md R30). -/
inductive RequestError where
  /-- It has no select bit. -/
  | noSelect
  /-- Its operand is not exactly as wide as the selected unit's input port. -/
  | operandWidth
deriving DecidableEq, Repr

end Sys2Proof
end

