-- ==== Sys2Proof/WellFormed.lean ====
section
/-! DEFINITION. When a string of bits is a request: select bit first, then an operand of exactly the width of the
selected unit's port (20_memory.md R24, 30_encoding.md R30). -/

namespace Sys2Proof

/-- The width of the input port an operation's operand travels on (10_state.md R16, R17; 20_memory.md R24). -/
def portWidth (op : Bool) : Nat := if op then 16 else 64

/-- A request written as one string of bits carries a select bit (30_encoding.md R30). -/
def hasSelect (bits : List Bool) : Bool := !bits.isEmpty

/-- The bits after the select bit are exactly as many as the selected unit's port has: "A narrower or wider operand
cannot be presented" (20_memory.md R24). -/
def operandWidthOk : List Bool → Bool
  | [] => false
  | op :: operand => operand.length == portWidth op

/-- The string of bits is a request. -/
def requestWellFormed (bits : List Bool) : Bool := hasSelect bits && operandWidthOk bits

end Sys2Proof
end

