-- ==== Sys2Proof/Decode.lean ====
section
/-! DEFINITION. Reading a request: from the request lines, from a string of bits, and from a row's number as
spec/opcode_table.json numbers bits; and the encoder beside it.

DESIGN CHOICE (log entry 1): as one string of bits, a request is its select bit followed by its operand, least
significant bit first. The spec places `op` at bit 0 of a row (opcode_table.json) and gives the operand no place in the
row. -/

namespace Sys2Proof

/-- The operation a request asks for: `op = 0` is ENCODE of `enc_x`, `op = 1` is DECODE of `dec_p` (30_encoding.md R30).
Total: no request is reserved or illegal (R43). -/
def Request.toInstr (r : Request) : Instr :=
  if r.op = 0#1 then .encode r.encX else .decode r.decP

/-- The request lines for an operation (30_encoding.md R30). The port of the unit that is not selected is driven zero
(DESIGN CHOICE, log entry 1; no operation reads it). -/
def Instr.toRequest : Instr → Request
  | .encode x => { op := 0#1, encX := x, decP := 0#16 }
  | .decode p => { op := 1#1, encX := 0#64, decP := p }

/-- The `n` low bits of a number, least significant first (00_scope.md R7). -/
def bitsOfNat : Nat → Nat → List Bool
  | 0, _ => []
  | n + 1, v => (v % 2 == 1) :: bitsOfNat n (v / 2)

/-- The number whose bits are given, least significant first (00_scope.md R7). -/
def natOfBits : List Bool → Nat
  | [] => 0
  | b :: bits => b.toNat + 2 * natOfBits bits

/-- The request lines a string of bits drives, or why it is no request (20_memory.md R24). -/
def requestOfBits : List Bool → Except RequestError Request
  | [] => .error .noSelect
  | op :: operand =>
    if operand.length = portWidth op then
      .ok (if op then { op := 1#1, encX := 0#64, decP := BitVec.ofNat 16 (natOfBits operand) }
           else { op := 0#1, encX := BitVec.ofNat 64 (natOfBits operand), decP := 0#16 })
    else .error .operandWidth

/-- The decoder of requests: total on any string of bits, rejecting by name what is no request. -/
def decodeBits (bits : List Bool) : Except RequestError Instr :=
  (requestOfBits bits).map Request.toInstr

/-- The string of bits of an operation's request: its select bit, then its operand (30_encoding.md R30). -/
def encodeBits : Instr → List Bool
  | .encode x => false :: bitsOfNat 64 x.toNat
  | .decode p => true :: bitsOfNat 16 p.toNat

/-- An operation is well-formed when its request is: always so, since every operand of a port's width is accepted
(30_encoding.md R43). -/
def Instr.wellFormed (i : Instr) : Bool := requestWellFormed (encodeBits i)

/-- The string of bits of a row's number: bit 0 is `op` (30_encoding.md R30, opcode_table.json), the operand above it;
bits above `nbits` are 0. A number that has bits beyond the selected unit's port keeps them, so that the decoder
refuses it. -/
def tableWordBits (nbits w : Nat) : List Bool :=
  let v := w % 2 ^ nbits
  let width := 1 + portWidth (v % 2 == 1)
  if nbits = 0 then [] else if v < 2 ^ width then bitsOfNat width v else bitsOfNat nbits v

/-- The instruction the decoder reads from a row's number; none where it refuses. -/
def decodeTableWord (nbits w : Nat) : Option Instr :=
  (decodeBits (tableWordBits nbits w)).toOption

end Sys2Proof
end

