-- ==== Sys2Proof/Machine/Rom.lean ====
section
/-! DEFINITION. The two constant ROMs (10_state.md R11, R13): their shape, their contents, and reading them.

Each constant is the binary64 value nearest its power of ten, ties to even (92_eei_decisions.md D4, log entry 6). -/

namespace Sys2Proof.Machine

/-- One bucket row of the dispatch ROM (10_state.md R11). -/
structure DispatchRow where
  /-- `THR[d]`: the bucket's inclusive lower bound. -/
  thr : Bits64
  /-- `SCALE[d]`: the bucket's scale multiplier. -/
  scale : Bits64
  /-- `ECODE[d]`: the bucket's exponent code. -/
  ecode : BitVec 5
deriving DecidableEq, Repr

/-- The encoder's constant table: one row per bucket, bucket 15 first and bucket -15 last, and the overflow bound
`THR[16]` (10_state.md R11). -/
structure DispatchRom where
  bound : Bits64
  rows : Vector DispatchRow Config.bucketCount
deriving DecidableEq, Repr

/-- The decoder's constant table `MULT[0..31]` (10_state.md R13). -/
abbrev MultRom := Vector Bits64 Config.multEntries

/-- The bucket `d` that row `j` of the dispatch ROM stands for (10_state.md R11). -/
def decadeOf (j : Fin Config.bucketCount) : Int := 15 - (j.val : Int)

/-- The row of bucket `d`, for `d` in -15..15 (20_memory.md R21). -/
def DispatchRom.row? (rom : DispatchRom) (d : Int) : Option DispatchRow :=
  if -15 ≤ d ∧ d ≤ 15 then rom.rows[(15 - d).toNat]? else none

/-- `THR[k]`, for `k` in -15..16: a row's threshold, or the overflow bound (10_state.md R11, 20_memory.md R21). -/
def DispatchRom.thr? (rom : DispatchRom) (k : Int) : Option Bits64 :=
  if k = 16 then some rom.bound else (rom.row? k).map DispatchRow.thr

/-- The contents of the dispatch ROM (10_state.md R11), in that rule's order. -/
def dispatchContents : DispatchRom where
  bound := 0x4341C37937E08000#64
  rows := #v[
    { thr := 0x430C6BF526340000#64, scale := 0x3D3C25C268497682#64, ecode := 15#5 },
    { thr := 0x42D6BCC41E900000#64, scale := 0x3D719799812DEA11#64, ecode := 14#5 },
    { thr := 0x42A2309CE5400000#64, scale := 0x3DA5FD7FE1796495#64, ecode := 13#5 },
    { thr := 0x426D1A94A2000000#64, scale := 0x3DDB7CDFD9D7BDBB#64, ecode := 12#5 },
    { thr := 0x42374876E8000000#64, scale := 0x3E112E0BE826D695#64, ecode := 11#5 },
    { thr := 0x4202A05F20000000#64, scale := 0x3E45798EE2308C3A#64, ecode := 10#5 },
    { thr := 0x41CDCD6500000000#64, scale := 0x3E7AD7F29ABCAF48#64, ecode := 9#5 },
    { thr := 0x4197D78400000000#64, scale := 0x3EB0C6F7A0B5ED8D#64, ecode := 8#5 },
    { thr := 0x416312D000000000#64, scale := 0x3EE4F8B588E368F1#64, ecode := 7#5 },
    { thr := 0x412E848000000000#64, scale := 0x3F1A36E2EB1C432D#64, ecode := 6#5 },
    { thr := 0x40F86A0000000000#64, scale := 0x3F50624DD2F1A9FC#64, ecode := 5#5 },
    { thr := 0x40C3880000000000#64, scale := 0x3F847AE147AE147B#64, ecode := 4#5 },
    { thr := 0x408F400000000000#64, scale := 0x3FB999999999999A#64, ecode := 3#5 },
    { thr := 0x4059000000000000#64, scale := 0x3FF0000000000000#64, ecode := 2#5 },
    { thr := 0x4024000000000000#64, scale := 0x4024000000000000#64, ecode := 1#5 },
    { thr := 0x3FF0000000000000#64, scale := 0x4059000000000000#64, ecode := 0#5 },
    { thr := 0x3FB999999999999A#64, scale := 0x408F400000000000#64, ecode := 17#5 },
    { thr := 0x3F847AE147AE147B#64, scale := 0x40C3880000000000#64, ecode := 18#5 },
    { thr := 0x3F50624DD2F1A9FC#64, scale := 0x40F86A0000000000#64, ecode := 19#5 },
    { thr := 0x3F1A36E2EB1C432D#64, scale := 0x412E848000000000#64, ecode := 20#5 },
    { thr := 0x3EE4F8B588E368F1#64, scale := 0x416312D000000000#64, ecode := 21#5 },
    { thr := 0x3EB0C6F7A0B5ED8D#64, scale := 0x4197D78400000000#64, ecode := 22#5 },
    { thr := 0x3E7AD7F29ABCAF48#64, scale := 0x41CDCD6500000000#64, ecode := 23#5 },
    { thr := 0x3E45798EE2308C3A#64, scale := 0x4202A05F20000000#64, ecode := 24#5 },
    { thr := 0x3E112E0BE826D695#64, scale := 0x42374876E8000000#64, ecode := 25#5 },
    { thr := 0x3DDB7CDFD9D7BDBB#64, scale := 0x426D1A94A2000000#64, ecode := 26#5 },
    { thr := 0x3DA5FD7FE1796495#64, scale := 0x42A2309CE5400000#64, ecode := 27#5 },
    { thr := 0x3D719799812DEA11#64, scale := 0x42D6BCC41E900000#64, ecode := 28#5 },
    { thr := 0x3D3C25C268497682#64, scale := 0x430C6BF526340000#64, ecode := 29#5 },
    { thr := 0x3D06849B86A12B9B#64, scale := 0x4341C37937E08000#64, ecode := 30#5 },
    { thr := 0x3CD203AF9EE75616#64, scale := 0x4376345785D8A000#64, ecode := 31#5 }]

/-- The contents of the multiplier ROM (10_state.md R13), `MULT[0]` first. -/
def multContents : MultRom := #v[
  0x3C670EF54646D497#64, 0x3C9CD2B297D889BC#64, 0x3CD203AF9EE75616#64, 0x3D06849B86A12B9B#64,
  0x3D3C25C268497682#64, 0x3D719799812DEA11#64, 0x3DA5FD7FE1796495#64, 0x3DDB7CDFD9D7BDBB#64,
  0x3E112E0BE826D695#64, 0x3E45798EE2308C3A#64, 0x3E7AD7F29ABCAF48#64, 0x3EB0C6F7A0B5ED8D#64,
  0x3EE4F8B588E368F1#64, 0x3F1A36E2EB1C432D#64, 0x3F50624DD2F1A9FC#64, 0x3F847AE147AE147B#64,
  0x3FB999999999999A#64, 0x3FF0000000000000#64, 0x4024000000000000#64, 0x4059000000000000#64,
  0x408F400000000000#64, 0x40C3880000000000#64, 0x40F86A0000000000#64, 0x412E848000000000#64,
  0x416312D000000000#64, 0x4197D78400000000#64, 0x41CDCD6500000000#64, 0x4202A05F20000000#64,
  0x42374876E8000000#64, 0x426D1A94A2000000#64, 0x42A2309CE5400000#64, 0x0000000000000000#64]

end Sys2Proof.Machine
end

