-- ==== Sys2Proof/Machine/State.lean ====
section
/-! DEFINITION. The machine's state as plain data.

The codec holds no mutable architectural state (10_state.md R10): its only storage is the two ROMs (R11, R13). Beside
them stands what 00_scope.md R5 asks a step relation to carry: the requests it consumes and the record of each request
with its result (log entry 3). -/

namespace Sys2Proof.Machine

/-- A performed request with its result (00_scope.md R5): the values on the unit's ports (10_state.md R16, R17). -/
inductive Completion where
  /-- An ENCODE of `x` returned `enc_p = p`, `enc_ok = ok`. -/
  | encoded (x : Bits64) (p : Packed) (ok : Bool)
  /-- A DECODE of `p` returned `dec_y = y`. -/
  | decoded (p : Packed) (y : Bits64)
deriving DecidableEq, Repr

/-- Why the machine stops with a fault. No step raises one (60_exceptions.md R91). -/
inductive Fault where
  /-- Raised by the port reads `State.encOutput` and `State.decOutput` (Machine/Ops.lean), never by a step: the output
  of a request that has not completed was read. 70_reset_and_hazards.md R101: such an output may show any value and must
  not be read; 93_implementation_defined.md ID9: "reading one should fault". Safe (log entry 4). -/
  | outputNotProduced
deriving DecidableEq, Repr

/-- Why a request gets no meaning. No step raises one. -/
inductive Refusal where
  /-- Would be raised by `exec` for an operation without a meaning. No operation is: never raised. Safe. -/
  | notModelled (mnemonic : String)
  /-- Raised by `State.present` (Machine/Ops.lean): the bits presented have no select bit (30_encoding.md R30). Safe. -/
  | noSelect
  /-- Raised by `State.present` (Machine/Ops.lean): the operand is narrower or wider than the selected unit's port,
  which "cannot be presented" (20_memory.md R24). Safe. -/
  | operandWidth
deriving DecidableEq, Repr

/-- The codec: its two ROMs, the requests not yet performed, and the record of those performed. -/
structure State where
  /-- The encoder's ROM (10_state.md R11). -/
  dispatch : DispatchRom
  /-- The decoder's ROM (10_state.md R13). -/
  mult : MultRom
  /-- The requests presented and not yet performed, oldest first (00_scope.md R5). -/
  pending : List Request
  /-- The performed requests with their results, oldest first (00_scope.md R5). -/
  completed : List Completion
deriving DecidableEq, Repr

/-- The machine after reset: the ROMs hold their constants (70_reset_and_hazards.md R100, R102). No request has been
presented and none performed (DESIGN CHOICE, log entry 3). -/
def State.reset : State where
  dispatch := dispatchContents
  mult := multContents
  pending := []
  completed := []

end Sys2Proof.Machine
end

