-- ==== Sys2Proof/Machine/Ops.lean ====
section
/-! DEFINITION. The named operations on the state: consuming a request, recording a result, and what the requester does
at the ports.

There is no memory and no register to read or write (10_state.md R10, 20_memory.md R20). Taking an exception and
returning from one do not exist: "there is no trap entry, no trap return, no nesting and no delegation"
(60_exceptions.md R91). -/

namespace Sys2Proof.Machine

/-- A request is performed with the result given: the result is recorded and nothing else changes (00_scope.md R5,
10_state.md R10, R14). -/
def State.complete (c : Completion) (s : State) : State := { s with completed := s.completed ++ [c] }

/-- The oldest request not yet performed, and the state without it; none when there is none (00_scope.md R5). -/
def State.takeRequest (s : State) : Option (Request × State) :=
  match s.pending with
  | [] => none
  | r :: rest => some (r, { s with pending := rest })

/-- A request arrives behind those waiting. -/
def State.enqueue (r : Request) (s : State) : State := { s with pending := s.pending ++ [r] }

/-- A request is placed before those waiting, so that the next step performs it. -/
def State.enqueueFirst (r : Request) (s : State) : State := { s with pending := r :: s.pending }

/-- The requester presents a string of bits: it is queued if it is a request, and refused by name if it is none
(30_encoding.md R30, 20_memory.md R24). -/
def State.present (bits : List Bool) (s : State) : Host.Outcome State Fault Refusal :=
  match requestOfBits bits with
  | .ok r => .next (s.enqueue r)
  | .error .noSelect => .refused .noSelect
  | .error .operandWidth => .refused .operandWidth

/-- The results of the encoder unit, in the order of its requests (10_state.md R16, 70_reset_and_hazards.md R104). -/
def State.encResults (s : State) : List (Packed × Bool) :=
  s.completed.filterMap fun c => match c with
    | .encoded _ p ok => some (p, ok)
    | .decoded _ _ => none

/-- The results of the decoder unit, in the order of its requests (10_state.md R17, 70_reset_and_hazards.md R104). -/
def State.decResults (s : State) : List Bits64 :=
  s.completed.filterMap fun c => match c with
    | .encoded _ _ _ => none
    | .decoded _ y => some y

/-- Reading `enc_p` and `enc_ok` for the encoder's request number `n` (from 0). An output exists only as the result of a
request: without it the read faults (70_reset_and_hazards.md R101, 93_implementation_defined.md ID9). -/
def State.encOutput (n : Nat) (s : State) : Except Fault (Packed × Bool) :=
  match s.encResults[n]? with
  | some r => .ok r
  | none => .error .outputNotProduced

/-- Reading `dec_y` for the decoder's request number `n` (from 0); without a result the read faults
(70_reset_and_hazards.md R101, 93_implementation_defined.md ID9). -/
def State.decOutput (n : Nat) (s : State) : Except Fault Bits64 :=
  match s.decResults[n]? with
  | some y => .ok y
  | none => .error .outputNotProduced

/-- A reset input is asserted: "asserting it changes no result" and the ROMs are unaffected (70_reset_and_hazards.md
R100). DEDUCED (log entry 16): requests waiting and results recorded stay as they are. -/
def State.assertReset (s : State) : State := s

end Sys2Proof.Machine
end

