-- ==== Sys2Proof/Machine/Decoder.lean ====
section
/-! DEFINITION. DECODE (41_decode.md R70): table lookup and multiply. -/

namespace Sys2Proof.Machine

/-- `mf`: the magnitude as a binary64 value, negated when the value sign is set, so that a zero magnitude gives -0.0
then (41_decode.md R75, R76). -/
def signedMagnitude (p : Packed) : Bits64 :=
  let mf := bits64OfNat (magnitude p)
  if valueSign p then negate mf else mf

/-- DECODE: `dec_y` for the word `p` (41_decode.md R70, R77). -/
def decodeResult (rom : MultRom) (p : Packed) : Bits64 := fmul (signedMagnitude p) rom[tableIndex p]

/-- The meaning of DECODE: its result is recorded, and it has no other effect (41_decode.md R70, 20_memory.md R25). -/
def execDecode (p : Packed) (s : State) : Host.Outcome State Fault Refusal :=
  .next (s.complete (.decoded p (decodeResult s.mult p)))

end Sys2Proof.Machine
end

