-- ==== Sys2Proof/Machine/Flags.lean ====
section
/-! DEFINITION. The one status output, `enc_ok`, from the exit an ENCODE takes (10_state.md R18, 60_exceptions.md R90,
R93). No other flag exists: no condition code, no IEEE exception flag (60_exceptions.md R94). -/

namespace Sys2Proof.Machine

/-- The four exits of an ENCODE, in the order their conditions are tested (60_exceptions.md R93). -/
inductive EncodeExit where
  /-- The operand is a zero (40_encode.md R51). -/
  | zero
  /-- The magnitude is at or above the overflow bound (40_encode.md R53). -/
  | overflow
  /-- The magnitude selects a bucket (40_encode.md R54). -/
  | bucket (row : DispatchRow)
  /-- The magnitude is below every threshold (40_encode.md R55). -/
  | underflow
deriving DecidableEq, Repr

/-- `enc_ok`: 0 exactly on a range error, whichever its cause (60_exceptions.md R90, R93). -/
def EncodeExit.ok : EncodeExit → Bool
  | .zero => true
  | .overflow => false
  | .bucket _ => true
  | .underflow => false

end Sys2Proof.Machine
end

