-- ==== Sys2Proof/Machine/Encoder.lean ====
section
/-! DEFINITION. ENCODE (40_encode.md R50): bucket dispatch and quantization round. -/

namespace Sys2Proof.Machine

/-- The first bucket, from 15 down to -15, whose threshold the magnitude meets or exceeds; comparisons are on unsigned
integers (40_encode.md R50, R54). -/
def selectBucket (rom : DispatchRom) (a : Bits64) : Option DispatchRow :=
  rom.rows.toList.find? fun row => row.thr ≤ a

/-- The exit an ENCODE of magnitude `a` takes: the first condition that holds decides (60_exceptions.md R93). -/
def classify (rom : DispatchRom) (a : Bits64) : EncodeExit :=
  if a = 0#64 then .zero
  else if rom.bound ≤ a then .overflow
  else match selectBucket rom a with
    | some row => .bucket row
    | none => .underflow

/-- The magnitude field of a word encoded in a bucket: the scale multiply, then round half up (40_encode.md R56, R57). -/
def quantize (row : DispatchRow) (a : Bits64) : Int := roundHalfUp (fmul a row.scale)

/-- The packed word for an exit: on a range error and for a zero it is 0x0000 (40_encode.md R51, R60); in a bucket it is
the rounded magnitude, the sign of the operand and the bucket's exponent code (R58, R59). -/
def packedForExit (exit : EncodeExit) (x : Bits64) : Packed :=
  match exit with
  | .zero => 0x0000#16
  | .overflow => 0x0000#16
  | .bucket row => pack (BitVec.ofInt 10 (quantize row (absBits x))) (signBit x) row.ecode
  | .underflow => 0x0000#16

/-- ENCODE: `(enc_p, enc_ok)` for the pattern `x` (40_encode.md R50). -/
def encodeResult (rom : DispatchRom) (x : Bits64) : Packed × Bool :=
  let exit := classify rom (absBits x)
  (packedForExit exit x, exit.ok)

/-- The meaning of ENCODE: its result is recorded, and it has no other effect (40_encode.md R50, 20_memory.md R25). -/
def execEncode (x : Bits64) (s : State) : Host.Outcome State Fault Refusal :=
  let r := encodeResult s.dispatch x
  .next (s.complete (.encoded x r.1 r.2))

end Sys2Proof.Machine
end

