-- ==== Sys2Proof/Machine/Dispatch.lean ====
section
/-! DEFINITION. The operation select: one arm per operation (30_encoding.md R30). -/

namespace Sys2Proof.Machine

/-- Performing one operation (00_scope.md R5). -/
def exec (i : Instr) (s : State) : Host.Outcome State Fault Refusal :=
  match i with
  | .encode x => Sys2Proof.Machine.execEncode x s
  | .decode p => Sys2Proof.Machine.execDecode p s

end Sys2Proof.Machine
end

