-- ==== Sys2Proof/Machine/Step.lean ====
section
/-! DEFINITION. One step of the model: one request consumed and its result produced, atomically (00_scope.md R5,
20_memory.md R25). -/

namespace Sys2Proof.Machine

/-- The oldest request is consumed and its operation performed. With no request waiting nothing happens (log entry 2). -/
def step (s : State) : Host.Outcome State Fault Refusal :=
  match s.takeRequest with
  | none => .next s
  | some (r, s') => exec r.toInstr s'

/-- The state with the request of a row's number placed first among those waiting, so that the next step performs it
(log entry 2). A number that is no request is not placed (20_memory.md R24). -/
def State.withFetchWord (s : State) (nbits w : Nat) : State :=
  match requestOfBits (tableWordBits nbits w) with
  | .ok r => s.enqueueFirst r
  | .error _ => s

end Sys2Proof.Machine
end

