-- ==== Sys2Proof/Machine/Alternatives.lean ====
section
/-! DEFINITION. The alternative implementations the spec allows (40_encode.md R57, R65; 41_decode.md R74) and the count
of comparisons it bounds (70_reset_and_hazards.md R105). The machine does not use them. -/

namespace Sys2Proof.Machine

/-- `a >= b` as a floating-point comparison: false when either is a NaN (40_encode.md R65), otherwise the order of the
values, with the infinities at its two ends. -/
def geFloat (a b : Bits64) : Bool :=
  if isNaN a || isNaN b then false
  else if isInf a then !signBit a || (isInf b && signBit b)
  else if isInf b then signBit b
  else decide (signedNum b * (magDen a : Int) ≤ signedNum a * (magDen b : Int))

/-- The exit of an ENCODE whose threshold tests are floating-point comparisons (40_encode.md R65). -/
def classifyFloat (rom : DispatchRom) (a : Bits64) : EncodeExit :=
  if a = 0#64 then .zero
  else if geFloat a rom.bound then .overflow
  else match rom.rows.toList.find? (fun row => geFloat a row.thr) with
    | some row => .bucket row
    | none => .underflow

/-- ENCODE with floating-point comparisons (40_encode.md R65). -/
def encodeResultFloat (rom : DispatchRom) (x : Bits64) : Packed × Bool :=
  let exit := classifyFloat rom (absBits x)
  (packedForExit exit x, exit.ok)

/-- Binary search, among the rows from `lo` up to `hi` (exclusive), for the first whose threshold the magnitude meets
or exceeds, the thresholds falling from row to row (40_encode.md R65). The first argument bounds the halvings. -/
def searchRows (rows : List DispatchRow) (a : Bits64) : Nat → Nat → Nat → Option DispatchRow
  | 0, lo, _ => rows[lo]?
  | fuel + 1, lo, hi =>
    if lo < hi then
      let mid := (lo + hi) / 2
      match rows[mid]? with
      | none => none
      | some row =>
        if row.thr ≤ a then searchRows rows a fuel lo mid else searchRows rows a fuel (mid + 1) hi
    else rows[lo]?

/-- Bucket selection by binary search over the 31 thresholds; 5 halvings suffice (40_encode.md R65). -/
def selectBucketBinary (rom : DispatchRom) (a : Bits64) : Option DispatchRow :=
  searchRows rom.rows.toList a 5 0 Config.bucketCount

/-- Rounding as the source phrases it: truncate to `out`, then add `2 * (v - out)` truncated
(40_encode.md R57, 90_conflicts.md C2). -/
def roundByDoubling (v : Bits64) : Int :=
  if isFinite v then
    let d : Int := magDen v
    let out := (signedNum v).tdiv d
    out + (2 * (signedNum v - out * d)).tdiv d
  else Config.roundNonFinite v

/-- DECODE with the mask of the table index dropped: "A model may implement the mask as written, or drop it"
(41_decode.md R74). An index without an entry would read +0.0, as an empty slot does (10_state.md R13). -/
def decodeResultUnmasked (rom : MultRom) (p : Packed) : Bits64 :=
  fmul (signedMagnitude p) (rom.toList.getD (biasedIndex p).toNat 0x0000000000000000#64)

/-- How many bucket thresholds the downward tests compare with: each row in turn, up to the first whose threshold the
magnitude meets or exceeds (40_encode.md R50, R54). -/
def bucketTests (a : Bits64) : List DispatchRow → Nat
  | [] => 0
  | row :: rest => if row.thr ≤ a then 1 else bucketTests a rest + 1

/-- How many threshold comparisons an ENCODE makes: none for a zero, one against the overflow bound, then one for each
bucket tested (40_encode.md R50, 70_reset_and_hazards.md R105; log entry 19). -/
def thresholdComparisons (rom : DispatchRom) (x : Bits64) : Nat :=
  let a := absBits x
  if a = 0#64 then 0
  else if rom.bound ≤ a then 1
  else bucketTests a rom.rows.toList + 1

end Sys2Proof.Machine
end

