-- ==== Sys2Proof/Machine/Serial.lean ====
section
/-! DEFINITION. Storing or sending a packed word as bytes. It lies outside the block: the byte order is the parameter
`SERIAL_BYTE_ORDER` of whoever serializes (20_memory.md R23, 92_eei_decisions.md D12). The machine does not use it. -/

namespace Sys2Proof.Machine

/-- The two bytes of a packed word in the given order, the first stored or sent byte first. -/
def serializeAs (order : ByteOrder) (p : Packed) : List Byte :=
  match order with
  | .little => [p.extractLsb' 0 8, p.extractLsb' 8 8]
  | .big => [p.extractLsb' 8 8, p.extractLsb' 0 8]

/-- The packed word of two bytes in the given order; none for another number of bytes. -/
def deserializeAs (order : ByteOrder) : List Byte → Option Packed
  | [first, second] =>
    match order with
    | .little => some (second ++ first)
    | .big => some (first ++ second)
  | _ => none

/-- A packed word as bytes in the order `SERIAL_BYTE_ORDER`. -/
def serialize (p : Packed) : List Byte := serializeAs Config.serialByteOrder p

/-- A packed word from bytes in the order `SERIAL_BYTE_ORDER`. -/
def deserialize (bytes : List Byte) : Option Packed := deserializeAs Config.serialByteOrder bytes

end Sys2Proof.Machine
end

