-- ==== Sys2Proof/Machine/Transcript.lean ====
section
/-! DEFINITION. The written form of requests and results (30_encoding.md R45), as lists of characters:
`ENC <x>`, `DEC <p>`, `-> p=0xHHHH ok=B`, `-> y=0xHHHHHHHHHHHHHHHH`. The machine does not use it.

DESIGN CHOICE (log entry 17): hex digits are written in capitals and read in either case; a decimal float literal is
an optional minus sign, digits, an optional point with digits, and an optional exponent. -/

namespace Sys2Proof.Machine

/-- A hex digit, in capitals. -/
def hexDigit (v : Nat) : Char :=
  if v < 10 then Char.ofNat (48 + v) else Char.ofNat (55 + v)

/-- The value of a hex digit in either case. -/
def hexValue (c : Char) : Option Nat :=
  let n := c.toNat
  if 48 ≤ n ∧ n ≤ 57 then some (n - 48)
  else if 65 ≤ n ∧ n ≤ 70 then some (n - 55)
  else if 97 ≤ n ∧ n ≤ 102 then some (n - 87)
  else none

/-- The `n` low hex digits of a number, most significant first. -/
def hexDigits : Nat → Nat → List Char
  | 0, _ => []
  | n + 1, v => hexDigit (v / 16 ^ n % 16) :: hexDigits n v

/-- The number a list of hex digits stands for, continuing from `acc`. -/
def readHex : Nat → List Char → Option Nat
  | acc, [] => some acc
  | acc, c :: cs =>
    match hexValue c with
    | some d => readHex (16 * acc + d) cs
    | none => none

/-- What follows `0x`, when the characters begin so. -/
def afterHexMark : List Char → Option (List Char)
  | a :: b :: rest => if a = '0' ∧ b = 'x' then some rest else none
  | _ => none

/-- A request as a line (30_encoding.md R45). -/
def writeRequest : Instr → List Char
  | .encode x => ['E', 'N', 'C', ' ', '0', 'x'] ++ hexDigits 16 x.toNat
  | .decode p => ['D', 'E', 'C', ' ', '0', 'x'] ++ hexDigits 4 p.toNat

/-- A result as a line (30_encoding.md R45). -/
def writeResult : Completion → List Char
  | .encoded _ p ok =>
    ['-', '>', ' ', 'p', '=', '0', 'x'] ++ hexDigits 4 p.toNat ++ [' ', 'o', 'k', '=', if ok then '1' else '0']
  | .decoded _ y => ['-', '>', ' ', 'y', '=', '0', 'x'] ++ hexDigits 16 y.toNat

/-- The leading decimal digits: their value continuing from `acc`, how many there are counting from `count`, and the
rest. -/
def readDigits : Nat → Nat → List Char → Nat × Nat × List Char
  | acc, count, [] => (acc, count, [])
  | acc, count, c :: cs =>
    if 48 ≤ c.toNat ∧ c.toNat ≤ 57 then readDigits (10 * acc + (c.toNat - 48)) (count + 1) cs
    else (acc, count, c :: cs)

/-- A leading minus sign, and the rest. -/
def readSign : List Char → Bool × List Char
  | [] => (false, [])
  | c :: cs => if c = '-' then (true, cs) else (false, c :: cs)

/-- The exponent part of a decimal literal, which ends the line; an absent one is 0. -/
def readExponent : List Char → Option Int
  | [] => some 0
  | c :: cs =>
    if c = 'e' ∨ c = 'E' then
      let (negative, digits) := readSign cs
      match readDigits 0 0 digits with
      | (v, _ + 1, []) => some (if negative then -(v : Int) else v)
      | _ => none
    else none

/-- The point and the digits after it, when present: the digits' value continuing from `acc`, how many there are, and
the rest. -/
def readFraction (acc : Nat) : List Char → Option (Nat × Nat × List Char)
  | [] => some (acc, 0, [])
  | c :: cs =>
    if c = '.' then
      match readDigits acc 0 cs with
      | (v, n + 1, rest) => some (v, n + 1, rest)
      | _ => none
    else some (acc, 0, c :: cs)

/-- The number `digits × 10^e` with a sign, as `bits64(RN(literal))` (30_encoding.md R45). -/
def bits64OfDecimal (negative : Bool) (digits : Nat) (e : Int) : Bits64 :=
  withSign negative (rn (digits * 10 ^ e.toNat) (10 ^ (-e).toNat))

/-- A decimal float literal (30_encoding.md R45). -/
def readDecimal (cs : List Char) : Option Bits64 :=
  let (negative, cs) := readSign cs
  match readDigits 0 0 cs with
  | (whole, _ + 1, rest) =>
    match readFraction whole rest with
    | some (digits, places, rest) =>
      (readExponent rest).map fun e => bits64OfDecimal negative digits (e - places)
    | none => none
  | _ => none

/-- The operand of `ENC`: 16 hex digits after `0x`, or a decimal float literal (30_encoding.md R45). -/
def readEncOperand (cs : List Char) : Option Bits64 :=
  match afterHexMark cs with
  | some digits => if digits.length = 16 then (readHex 0 digits).map (BitVec.ofNat 64) else none
  | none => readDecimal cs

/-- The operand of `DEC`: 4 hex digits after `0x` (30_encoding.md R45). -/
def readDecOperand (cs : List Char) : Option Packed :=
  match afterHexMark cs with
  | some digits => if digits.length = 4 then (readHex 0 digits).map (BitVec.ofNat 16) else none
  | none => none

/-- The request a line stands for; none when it is not in the form of 30_encoding.md R45. -/
def readRequest (line : List Char) : Option Instr :=
  if line.take 4 = ['E', 'N', 'C', ' '] then (readEncOperand (line.drop 4)).map .encode
  else if line.take 4 = ['D', 'E', 'C', ' '] then (readDecOperand (line.drop 4)).map .decode
  else none

end Sys2Proof.Machine
end

