-- ==== Sys2Proof/Machine/Units.lean ====
section
/-! DEFINITION. The other arrangements the spec allows: the two units on separate request paths (30_encoding.md R30,
20_memory.md R26, 70_reset_and_hazards.md R104), and several instances (60_exceptions.md R97). -/

namespace Sys2Proof.Machine

/-- The two units. -/
inductive UnitName where
  | encoder
  | decoder
deriving DecidableEq, Repr

/-- A codec whose units have request paths of their own, with no select bit: requests "are told apart by the port they
arrive on" (30_encoding.md R30). Within a unit, requests and results are in order (70_reset_and_hazards.md R104). -/
structure TwoPath where
  dispatch : DispatchRom
  mult : MultRom
  encPending : List Bits64
  decPending : List Packed
  encResults : List (Packed × Bool)
  decResults : List Bits64
deriving DecidableEq, Repr

/-- One unit performs its oldest request, if it has one. -/
def TwoPath.serve (m : TwoPath) : UnitName → TwoPath
  | .encoder =>
    match m.encPending with
    | [] => m
    | x :: rest => { m with encPending := rest, encResults := m.encResults ++ [encodeResult m.dispatch x] }
  | .decoder =>
    match m.decPending with
    | [] => m
    | p :: rest => { m with decPending := rest, decResults := m.decResults ++ [decodeResult m.mult p] }

/-- The units perform requests in the order a schedule gives (20_memory.md R26). -/
def TwoPath.run (m : TwoPath) (schedule : List UnitName) : TwoPath := schedule.foldl TwoPath.serve m

/-- The same requests and results, on separate paths. -/
def State.toTwoPath (s : State) : TwoPath where
  dispatch := s.dispatch
  mult := s.mult
  encPending := s.pending.filterMap fun r => match r.toInstr with
    | .encode x => some x
    | .decode _ => none
  decPending := s.pending.filterMap fun r => match r.toInstr with
    | .encode _ => none
    | .decode p => some p
  encResults := s.encResults
  decResults := s.decResults

/-- Instance number `j` of a list of codecs takes a step (60_exceptions.md R97). The others are not touched. -/
def stepInstance (j : Nat) (bank : List State) : List State :=
  match bank[j]? with
  | none => bank
  | some s =>
    match step s with
    | .next t => bank.set j t
    | .fault _ => bank
    | .refused _ => bank

end Sys2Proof.Machine
end

