-- ==== Sys2Proof/Safety.lean ====
section
/-! DEFINITION. The terms claims are stated in: when the rules apply, the sets of operands and words the spec names,
rounding said on the real numbers, and the invariant. -/

namespace Sys2Proof.Machine

/-- "Before the rules of this spec hold, only one thing must be true: the two ROMs hold exactly the contents of
10_state.md rules R11 and R13" (70_reset_and_hazards.md R102). -/
structure State.RomsLoaded (s : State) : Prop where
  dispatch_eq : s.dispatch = dispatchContents
  mult_eq : s.mult = multContents

/-- `b` is `RN(r)` (00_scope.md R8): no finite binary64 value is nearer to `r`, and where another value is as near the
least significant bit of the fraction of `b` is 0. -/
structure NearestEven (r : ℚ) (b : Bits64) : Prop where
  finite : isFinite b = true
  nearest : ∀ c : Bits64, isFinite c = true → |f64 b - r| ≤ |f64 c - r|
  tie_even : ∀ c : Bits64, isFinite c = true → f64 c ≠ f64 b → |f64 c - r| = |f64 b - r| → b.getLsbD 0 = false

/-- The real number half a unit beyond the largest finite binary64 value: below it in magnitude, `RN` is a finite
value. -/
def rnLimit : ℚ := (2 ^ 54 - 1) * 2 ^ 970

/-- `round_half_up` on the real numbers (40_encode.md R50, R57). -/
def realRoundHalfUp (r : ℚ) : Int := ⌊r⌋ + (if (1 : ℚ) / 2 ≤ r - ⌊r⌋ then 1 else 0)

/-- The operand is a range error: nonzero, with magnitude at or above `THR[16]` or below `THR[-15]`
(60_exceptions.md R90). -/
abbrev IsRangeError (x : Bits64) : Prop :=
  absBits x ≠ 0#64 ∧ (0x4341C37937E08000#64 ≤ absBits x ∨ absBits x < 0x3CD203AF9EE75616#64)

/-- The canonical words (30_encoding.md R40). -/
abbrev Canonical (p : Packed) : Prop :=
  p = 0x0000#16 ∨ (100 ≤ magnitude p ∧ magnitude p ≤ 1000 ∧ exponentCode p ≠ 16#5)

/-- The rows of the table of 30_encoding.md R38: code, signed index `i`, table index `k`, decoded exponent `E`. -/
def exponentCodeTable : List (Nat × Int × Nat × Int) := [
  (0, 0, 15, -2), (1, 1, 16, -1), (2, 2, 17, 0), (3, 3, 18, 1), (4, 4, 19, 2), (5, 5, 20, 3), (6, 6, 21, 4),
  (7, 7, 22, 5), (8, 8, 23, 6), (9, 9, 24, 7), (10, 10, 25, 8), (11, 11, 26, 9), (12, 12, 27, 10), (13, 13, 28, 11),
  (14, 14, 29, 12), (15, 15, 30, 13), (16, 0, 15, -2), (17, -1, 14, -3), (18, -2, 13, -4), (19, -3, 12, -5),
  (20, -4, 11, -6), (21, -5, 10, -7), (22, -6, 9, -8), (23, -7, 8, -9), (24, -8, 7, -10), (25, -9, 6, -11),
  (26, -10, 5, -12), (27, -11, 4, -13), (28, -12, 3, -14), (29, -13, 2, -15), (30, -14, 1, -16), (31, -15, 0, -17)]

/-- What a recorded result looks like. Of an ENCODE: a canonical word for an operand that is no range error, or 0x0000
for one that is (30_encoding.md R40, 60_exceptions.md R90). Of a DECODE: a finite value, with the sign of the word, zero
exactly when the magnitude is (41_decode.md R77, R78, R80). -/
def Completion.Legal : Completion → Prop
  | .encoded x p true => ¬ IsRangeError x ∧ Canonical p
  | .encoded x p false => IsRangeError x ∧ p = 0x0000#16
  | .decoded p y =>
    isFinite y = true ∧ signBit y = valueSign p ∧ (absBits y = 0#64 ↔ magnitude p = 0)

/-- The invariant: the ROMs are loaded and every recorded result is legal. -/
structure State.Inv (s : State) : Prop where
  loaded : s.RomsLoaded
  legal : ∀ c ∈ s.completed, c.Legal

/-- The record a performed operation leaves, with the ROMs given (00_scope.md R5). -/
def completionOf (dispatch : DispatchRom) (mult : MultRom) : Instr → Completion
  | .encode x => .encoded x (encodeResult dispatch x).1 (encodeResult dispatch x).2
  | .decode p => .decoded p (decodeResult mult p)

end Sys2Proof.Machine
end

