-- ==== Sys2Proof/Certificates/Slice0/Obligations.lean ====
section
/-! DEFINITION. The statements about the codec, for the provers. Each docstring names the rule or section of spec/ it
formalises, and the log entry of notes/assumptions/ where a clause is the model's choice. -/

open Sys2Proof Sys2Proof.Machine

/-! ### Requests -/

/-- 30_encoding.md R30, 00_scope.md R5: the select bit chooses the unit and its port, and a step at a waiting request
performs that request's operation with the request consumed. MODEL'S CHOICE (log entry 2): with no request waiting, a
step changes nothing. -/
def Obligations.StepPerformsTheRequestedOperation : Prop :=
  (∀ r : Request, (r.op = 0#1 → r.toInstr = .encode r.encX) ∧ (r.op = 1#1 → r.toInstr = .decode r.decP)) ∧
  (∀ (s : State) (r : Request) (rest : List Request) (i : Instr),
    s.pending = r :: rest → r.toInstr = i → i.wellFormed = true → step s = exec i { s with pending := rest }) ∧
  (∀ s : State, s.pending = [] → step s = .next s)

/-- 30_encoding.md R30 and the encodings of 95_test_vectors.md P1: four requests written out bit by bit (select bit
first, then the operand from its least significant bit: log entry 1, the model's choice) decode to what they stand for. -/
def Obligations.WrittenOutRequestsDecode : Prop :=
  decodeBits (false :: (List.replicate 51 false ++ List.replicate 11 true ++ [false, false])) =
    .ok (.encode 0x3FF8000000000000#64) ∧
  decodeBits (false :: (List.replicate 63 false ++ [true])) = .ok (.encode 0x8000000000000000#64) ∧
  decodeBits [true, false, false, false, false, false, false, false, true, true, false, true, false, false, true,
    false, false] = .ok (.decode 0x2580#16) ∧
  decodeBits [true, false, false, true, false, false, true, false, false, true, false, false, true, false, true, true,
    false] = .ok (.decode 0x6924#16)

/-- 30_encoding.md R30, R43 (the layout of a request as bits: log entry 1, the model's choice): decoding an encoded
operation gives it back, on the request lines, as a string of bits and as a row's number; and a string of bits that
decodes is the encoding of what it decodes to, so no bit is dropped. -/
def Obligations.DecodeAndEncodeAgree : Prop :=
  (∀ i : Instr, i.wellFormed = true →
    i.toRequest.toInstr = i ∧ decodeBits (encodeBits i) = .ok i ∧
    decodeTableWord 65 (natOfBits (encodeBits i)) = some i) ∧
  (∀ (bits : List Bool) (i : Instr), decodeBits bits = .ok i → encodeBits i = bits)

/-- 20_memory.md R24, with 30_encoding.md R30 (refusing by name: log entry 1, the model's choice): a string of bits whose
operand is exactly the selected port's width is queued as a request that asks for exactly those bits; any other is
refused by name. -/
def Obligations.PresentedBitsAreQueuedOrRefused : Prop :=
  ∀ s : State,
    State.present [] s = .refused .noSelect ∧
    ∀ (op : Bool) (operand : List Bool),
      (operand.length = (if op then 16 else 64) →
        ∃ r : Request, State.present (op :: operand) s = .next { s with pending := s.pending ++ [r] } ∧
          encodeBits r.toInstr = op :: operand) ∧
      (operand.length ≠ (if op then 16 else 64) → State.present (op :: operand) s = .refused .operandWidth)

/-! ### Every operation: outcome and frame -/

/-- 60_exceptions.md R91 for the outcome, 10_state.md R10 and 20_memory.md R25 for the frame: performing an operation
always answers a next state, in which one result is recorded and everything else (both ROMs, the requests waiting, the
earlier results) is unchanged; and every step answers a next state. MODEL'S CHOICE (log entry 2): so does a step with no
request waiting. -/
def Obligations.NoOperationFaults : Prop :=
  (∀ (i : Instr) (s : State), ∃ c : Completion, exec i s = .next { s with completed := s.completed ++ [c] }) ∧
  (∀ s : State, ∃ t : State, step s = .next t)

/-- 10_state.md R14: no operation, no run of any length, no reset and nothing a requester does writes either ROM. -/
def Obligations.RomContentsNeverChange : Prop :=
  (∀ (i : Instr) (s t : State), exec i s = .next t → t.dispatch = s.dispatch ∧ t.mult = s.mult) ∧
  (∀ (n : Nat) (s t : State), Sys2Proof.core.run n s = .next t → t.dispatch = s.dispatch ∧ t.mult = s.mult) ∧
  (∀ (bits : List Bool) (s t : State), State.present bits s = .next t →
    t.dispatch = s.dispatch ∧ t.mult = s.mult) ∧
  (∀ s : State, s.assertReset.dispatch = s.dispatch ∧ s.assertReset.mult = s.mult)

/-- 10_state.md R10, R19: with the ROMs loaded there is one function of the operand for each operation, whatever
requests came before, are waiting, or were recorded. -/
def Obligations.ResultDependsOnOperandAlone : Prop :=
  ∃ (f : Bits64 → Packed × Bool) (g : Packed → Bits64), ∀ s : State, s.RomsLoaded →
    (∀ x, exec (.encode x) s = .next { s with completed := s.completed ++ [.encoded x (f x).1 (f x).2] }) ∧
    (∀ p, exec (.decode p) s = .next { s with completed := s.completed ++ [.decoded p (g p)] })

/-! ### The ROMs -/

/-- 10_state.md R13 with 70_reset_and_hazards.md R100: after reset `MULT[k]` is the binary64 value nearest `10^(k-17)`,
ties to even, for `k` in 0..30; `MULT[31]` is +0.0; and no decode reads `MULT[31]`. -/
def Obligations.MultiplierRomHoldsNearestPowers : Prop :=
  (∀ k : Fin 32, k.val < 31 → NearestEven ((10 : ℚ) ^ ((k.val : Int) - 17)) State.reset.mult[k]) ∧
  State.reset.mult[(31 : Fin 32)] = 0x0000000000000000#64 ∧
  ∀ p : Packed, (tableIndex p).val ≠ 31

/-- 10_state.md R11 with 70_reset_and_hazards.md R100 (the general formula for `SCALE` and `ECODE` is an inference the
rule marks as its own): after reset, for each bucket `d`, `THR[d]` is the binary64 nearest `10^d`, `SCALE[d]` the one
nearest `10^(2-d)`, `ECODE[d]` is `d` or `16 - d`; the overflow bound is the one nearest `10^16`. -/
def Obligations.DispatchRomHoldsNearestPowers : Prop :=
  (∀ d : Int, -15 ≤ d → d ≤ 15 →
    ∃ row : DispatchRow, State.reset.dispatch.row? d = some row ∧
      NearestEven ((10 : ℚ) ^ d) row.thr ∧ NearestEven ((10 : ℚ) ^ (2 - d)) row.scale ∧
      (row.ecode.toNat : Int) = if 0 ≤ d then d else 16 - d) ∧
  NearestEven ((10 : ℚ) ^ (16 : Int)) State.reset.dispatch.bound

/-! ### The float primitives -/

/-- 00_scope.md R8 (supplied there from general knowledge): `rn` is round to nearest, ties to even, of every nonnegative
ratio below half a unit past the largest finite value. -/
def Obligations.RoundingIsNearestEven : Prop :=
  ∀ num den : Nat, 0 < den → (num : ℚ) / (den : ℚ) < rnLimit →
    NearestEven ((num : ℚ) / (den : ℚ)) (withSign false (rn num den))

/-- 00_scope.md R8 (supplied there from general knowledge): `fmul(a, b) = RN(f64(a) × f64(b))` on finite operands whose
product is in range, with the XOR of the operand signs. PRESUMED (log entry 8): that sign also where a nonzero exact
product rounds to zero, of which R8 does not speak. -/
def Obligations.ProductIsNearestEven : Prop :=
  ∀ a b : Bits64, isFinite a = true → isFinite b = true → |f64 a * f64 b| < rnLimit →
    NearestEven (f64 a * f64 b) (fmul a b) ∧ signBit (fmul a b) = (signBit a ^^ signBit b)

/-- 40_encode.md R65 (general knowledge there): on nonnegative values that are no NaN, unsigned order of the bit patterns
is floating-point order, and on finite ones it is the order of the real values. -/
def Obligations.BitOrderIsNumericOrder : Prop :=
  ∀ a b : Bits64, signBit a = false → signBit b = false → isNaN a = false → isNaN b = false →
    ((b ≤ a ↔ geFloat a b = true) ∧ (isFinite a = true → isFinite b = true → (b ≤ a ↔ f64 b ≤ f64 a)))

/-- 40_encode.md R57: for a nonnegative finite `v`, the encoder's rounding is `floor(v)`, plus 1 when the exact
remainder is at least 1/2, and it is also the source's phrasing `out + trunc(2 × (v - out))`. -/
def Obligations.QuantizationRoundsHalfUp : Prop :=
  ∀ v : Bits64, isFinite v = true → signBit v = false →
    roundHalfUp v = realRoundHalfUp (f64 v) ∧ roundByDoubling v = roundHalfUp v

/-! ### Packed words -/

/-- 30_encoding.md R36: assembly and extraction of the four fields are inverse to each other, and each field is the
slice of bits the rule names. -/
def Obligations.PackAndUnpackAgree : Prop :=
  (∀ (m : BitVec 10) (s : Bool) (c : BitVec 5),
    magnitude (pack m s c) = m.toNat ∧ valueSign (pack m s c) = s ∧ exponentCode (pack m s c) = c) ∧
  (∀ p : Packed,
    p = pack (BitVec.ofNat 10 (magnitude p)) (valueSign p) (exponentCode p) ∧
    magnitude p = (p.extractLsb' 6 10).toNat ∧ valueSign p = p.getLsbD 5 ∧
    exponentCode p = p.extractLsb' 0 5 ∧ exponentSign p = p.getLsbD 4 ∧
    exponentIndex p = (p.extractLsb' 0 4).toNat)

/-- 30_encoding.md R37, R38 (inferences the spec marks as its own): what the decoder makes of each of the 32 exponent
codes, row by row of the table; and bucket `i` emits the code, for every code but 16, which no bucket emits. -/
def Obligations.ExponentCodesReadAsTabled : Prop :=
  exponentCodeTable.length = 32 ∧
  (∀ p : Packed, ((exponentCode p).toNat, signedIndex p, (tableIndex p).val, decodedExponent p) ∈ exponentCodeTable) ∧
  (∀ row ∈ exponentCodeTable, row.1 ≠ 16 →
    (dispatchContents.row? row.2.1).map (fun r => r.ecode.toNat) = some row.1) ∧
  (∀ r ∈ dispatchContents.rows.toList, r.ecode ≠ 16#5)

/-! ### ENCODE -/

/-- 40_encode.md R51: an operand with `x[62:0] = 0`, that is +0.0 or -0.0, succeeds with the word 0x0000, before any
range test (so whatever the ROM holds), and nothing but the record changes. -/
def Obligations.EncodeOfZeroSucceeds : Prop :=
  ∀ (s : State) (x : Bits64),
    (x.extractLsb' 0 63 = 0#63 ↔ x = 0x0000000000000000#64 ∨ x = 0x8000000000000000#64) ∧
    (x.extractLsb' 0 63 = 0#63 →
      exec (.encode x) s = .next { s with completed := s.completed ++ [.encoded x 0x0000#16 true] })

/-- 40_encode.md R53 (the word 0x0000 is the spec's decision D10): at or above the binary64 1e16, compared as unsigned
bit patterns, ENCODE fails with 0x0000. -/
def Obligations.EncodeOverflowFails : Prop :=
  ∀ (s : State) (x : Bits64), s.RomsLoaded → 0x4341C37937E08000#64 ≤ (x.extractLsb' 0 63).setWidth 64 →
    exec (.encode x) s = .next { s with completed := s.completed ++ [.encoded x 0x0000#16 false] }

/-- 40_encode.md R55 (the word 0x0000 is the spec's decision D10): a nonzero operand below the binary64 1e-15 fails with
0x0000; every subnormal is such an operand. And, an inference the rule marks as its own (from R54): the binary64 1e-15
itself succeeds, in bucket -15, whose code is 31. -/
def Obligations.EncodeUnderflowFails : Prop :=
  ∀ (s : State) (x : Bits64), s.RomsLoaded →
    (0#64 < absBits x → absBits x < 0x3CD203AF9EE75616#64 →
      exec (.encode x) s = .next { s with completed := s.completed ++ [.encoded x 0x0000#16 false] }) ∧
    (isSubnormal x = true → 0#64 < absBits x ∧ absBits x < 0x3CD203AF9EE75616#64) ∧
    (absBits x = 0x3CD203AF9EE75616#64 →
      ∃ p : Packed, exec (.encode x) s = .next { s with completed := s.completed ++ [.encoded x p true] } ∧
        exponentCode p = 31#5 ∧ selectBucket s.dispatch (absBits x) = s.dispatch.row? (-15))

/-- 40_encode.md R63 (an inference the spec marks as its own, and its decision D11): every infinity, every NaN and every
subnormal, of either sign and with any payload, is a range error. -/
def Obligations.EncodeOfInfinityNaNSubnormalFails : Prop :=
  ∀ (s : State) (x : Bits64), s.RomsLoaded → (isInf x || isNaN x || isSubnormal x) = true →
    exec (.encode x) s = .next { s with completed := s.completed ++ [.encoded x 0x0000#16 false] }

/-- 60_exceptions.md R90 (the word 0x0000 is the spec's decision D10): ENCODE completes with `enc_ok = 0` exactly when
the operand is a range error, then with 0x0000, and every infinity and NaN is one. -/
def Obligations.RangeErrorIsTheOnlyFailure : Prop :=
  ∀ (s : State) (x : Bits64), s.RomsLoaded →
    ∃ (p : Packed) (ok : Bool),
      exec (.encode x) s = .next { s with completed := s.completed ++ [.encoded x p ok] } ∧
      (ok = false ↔ IsRangeError x) ∧ (ok = false → p = 0x0000#16) ∧
      (isInf x = true ∨ isNaN x = true → ok = false)

/-- 10_state.md R12 and 40_encode.md R54 (uniqueness is an inference the spec marks as its own): from THR[-15] up to
THR[16] exactly one bucket `d` has `THR[d] ≤ a < THR[d+1]`, and the downward tests select that bucket's row. -/
def Obligations.BucketTestsSelectTheUniqueBucket : Prop :=
  ∀ a : Bits64, 0x3CD203AF9EE75616#64 ≤ a → a < 0x4341C37937E08000#64 →
    ∃ (d : Int) (row : DispatchRow) (hi : Bits64),
      dispatchContents.row? d = some row ∧ dispatchContents.thr? (d + 1) = some hi ∧ row.thr ≤ a ∧ a < hi ∧
      selectBucket dispatchContents a = some row ∧
      ∀ (d' : Int) (lo' hi' : Bits64), -15 ≤ d' → d' ≤ 15 → dispatchContents.thr? d' = some lo' →
        dispatchContents.thr? (d' + 1) = some hi' → lo' ≤ a → a < hi' → d' = d

/-- 40_encode.md R56 to R59; that bucket `d` is the one with `THR[d] ≤ |x| < THR[d+1]` is the form R54 marks as its own
inference. For an operand in bucket `d`, ENCODE completes with success and the word
whose magnitude is the half-up rounding, in real arithmetic, of `v`, the correctly rounded product of `|x|` and
`SCALE[d]`; whose value sign is `x[63]`; and whose exponent code is `d`, or `16 - d` for a negative `d`. Nothing but the
record changes. -/
def Obligations.EncodeMeetsRealArithmetic : Prop :=
  ∀ (s : State) (x : Bits64) (d : Int) (row : DispatchRow) (hi : Bits64), s.RomsLoaded →
    s.dispatch.row? d = some row → s.dispatch.thr? (d + 1) = some hi → row.thr ≤ absBits x → absBits x < hi →
    ∃ (v : Bits64) (m : BitVec 10) (c : BitVec 5),
      exec (.encode x) s =
        .next { s with completed := s.completed ++ [.encoded x (m ++ BitVec.ofBool (x.getLsbD 63) ++ c) true] } ∧
      NearestEven (f64 (absBits x) * f64 row.scale) v ∧
      (m.toNat : Int) = realRoundHalfUp (f64 v) ∧
      (c.toNat : Int) = if 0 ≤ d then d else 16 - d

/-- 40_encode.md R62 (an inference the spec marks as its own): in every bucket the scaled value lies in [100, 1000), the
rounded magnitude in 100..1000, and it is 1000 exactly when the scaled value is at least 999.5. -/
def Obligations.ScaledMagnitudeStaysInRange : Prop :=
  ∀ (a : Bits64) (d : Int) (row : DispatchRow) (hi : Bits64),
    dispatchContents.row? d = some row → dispatchContents.thr? (d + 1) = some hi → row.thr ≤ a → a < hi →
    100 ≤ f64 (fmul a row.scale) ∧ f64 (fmul a row.scale) < 1000 ∧
    100 ≤ quantize row a ∧ quantize row a ≤ 1000 ∧
    (quantize row a = 1000 ↔ (1999 : ℚ) / 2 ≤ f64 (fmul a row.scale))

/-- 40_encode.md R61 (an inference the spec marks as its own): flipping the sign of the operand never changes success;
on success with a nonzero operand the words differ in bit 5 alone, and a failing word is 0x0000 for both. -/
def Obligations.EncodeIsSignIndependent : Prop :=
  ∀ (s : State) (x : Bits64), s.RomsLoaded →
    ∃ (p q : Packed) (ok : Bool),
      exec (.encode x) s = .next { s with completed := s.completed ++ [.encoded x p ok] } ∧
      exec (.encode (x ^^^ 0x8000000000000000#64)) s =
        .next { s with completed := s.completed ++ [.encoded (x ^^^ 0x8000000000000000#64) q ok] } ∧
      (absBits x ≠ 0#64 → ok = true → q = p ^^^ 0x0020#16) ∧
      (ok = false → p = 0x0000#16 ∧ q = 0x0000#16)

/-- 30_encoding.md R40, with R39 and 40_encode.md R64 (inferences the spec marks as its own): a word is canonical
exactly when some operand encodes to it with success. -/
def Obligations.EmittedWordsAreTheCanonicalOnes : Prop :=
  ∀ p : Packed, Canonical p ↔
    ∃ x : Bits64, ∀ s : State, s.RomsLoaded →
      exec (.encode x) s = .next { s with completed := s.completed ++ [.encoded x p true] }

/-- 40_encode.md R65 (its NaN route is an inference the spec marks as its own): ENCODE with floating-point threshold
comparisons, false on every NaN, returns the same outputs for every one of the 2^64 operands. -/
def Obligations.FloatComparisonEncodesAlike : Prop :=
  ∀ x : Bits64, encodeResultFloat dispatchContents x = encodeResult dispatchContents x

/-- 10_state.md R12 and 40_encode.md R65: the thresholds strictly increase with `d`; and over any dispatch ROM whose
thresholds do, binary search selects the row that the downward tests select. -/
def Obligations.BinarySearchSelectsAlike : Prop :=
  dispatchContents.rows.toList.Pairwise (fun r r' => r'.thr < r.thr) ∧
  ∀ (rom : DispatchRom) (a : Bits64), rom.rows.toList.Pairwise (fun r r' => r'.thr < r.thr) →
    selectBucketBinary rom a = selectBucket rom a

/-- 70_reset_and_hazards.md R105 with 40_encode.md R50 (an inference the spec marks as its own; how comparisons are
counted: log entry 19, the model's choice): the number of threshold comparisons is tied to the exit the encoder's tests
come to. Over any ROM it is 0 for a zero, 1 for an overflow, 32 for an underflow, and never above 32; over the loaded
ROM it is `17 - d` when bucket `d` is selected. -/
def Obligations.ThresholdComparisonsFollowTheExit : Prop :=
  (∀ (rom : DispatchRom) (x : Bits64),
    thresholdComparisons rom x ≤ 32 ∧
    (classify rom (absBits x) = .zero → thresholdComparisons rom x = 0) ∧
    (classify rom (absBits x) = .overflow → thresholdComparisons rom x = 1) ∧
    (classify rom (absBits x) = .underflow → thresholdComparisons rom x = 32)) ∧
  (∀ (x : Bits64) (d : Int) (row : DispatchRow), dispatchContents.row? d = some row →
    classify dispatchContents (absBits x) = .bucket row →
    (thresholdComparisons dispatchContents x : Int) = 17 - d)

/-! ### DECODE -/

/-- 41_decode.md R75: the magnitude is bits 15:6, in 0..1023, and its conversion to binary64 is exact; so is that of
every integer below 2^53. -/
def Obligations.MagnitudeConversionIsExact : Prop :=
  (∀ p : Packed, magnitude p = (p.extractLsb' 6 10).toNat ∧ magnitude p ≤ 1023 ∧
    f64 (bits64OfNat (magnitude p)) = (magnitude p : ℚ)) ∧
  (∀ m : Nat, m < 2 ^ 53 → f64 (bits64OfNat m) = (m : ℚ) ∧ signBit (bits64OfNat m) = false)

/-- 41_decode.md R77 (with R72 to R76): DECODE of every word completes with the correctly rounded product of the signed
magnitude and `MULT[k]`, `k = i + 15` with `i` the signed index (DEDUCED, log entry 9: R82 writes another index), and
with the word's value sign (an inference R77 marks as its own). Nothing but the record changes. -/
def Obligations.DecodeMeetsRealArithmetic : Prop :=
  ∀ (s : State) (p : Packed), s.RomsLoaded →
    ∃ (k : Fin 32) (y : Bits64),
      exec (.decode p) s = .next { s with completed := s.completed ++ [.decoded p y] } ∧
      (k.val : Int) = (if p.getLsbD 4 then -((p.extractLsb' 0 4).toNat : Int) else (p.extractLsb' 0 4).toNat) + 15 ∧
      NearestEven ((if p.getLsbD 5 then -1 else 1) * ((p.extractLsb' 6 10).toNat : ℚ) * f64 s.mult[k]) y ∧
      signBit y = p.getLsbD 5

/-- 30_encoding.md R33, R34: every one of the 65536 words is accepted and yields a finite binary64 value. -/
def Obligations.DecodeAlwaysYieldsFiniteValue : Prop :=
  ∀ (s : State) (p : Packed), s.RomsLoaded →
    ∃ y : Bits64, exec (.decode p) s = .next { s with completed := s.completed ++ [.decoded p y] } ∧
      isFinite y = true

/-- 41_decode.md R78 and 90_conflicts.md C4 (inferences the spec marks as its own): a word with a nonzero magnitude
decodes to a normal value of magnitude from `fmul(1, MULT[0])` to `fmul(1023, MULT[30])`, never to a zero, and both ends
are reached. -/
def Obligations.NonzeroWordsDecodeToNormalRange : Prop :=
  (∀ (s : State) (p : Packed), s.RomsLoaded → magnitude p ≠ 0 →
    ∃ y : Bits64, exec (.decode p) s = .next { s with completed := s.completed ++ [.decoded p y] } ∧
      0x3C670EF54646D497#64 ≤ absBits y ∧ absBits y ≤ 0x43422C10BE06B000#64 ∧
      0 < expField y ∧ expField y < 0x7FF) ∧
  decodeResult multContents 0x005F#16 = 0x3C670EF54646D497#64 ∧
  decodeResult multContents 0xFFCF#16 = 0x43422C10BE06B000#64

/-- 30_encoding.md R41 (the sign of a decoded zero is the spec's decision D13): exactly 64 words have magnitude 0; each
decodes to +0.0 or -0.0 by its bit 5; and the encoder emits only 0x0000 of them. -/
def Obligations.ZeroWordsDecodeToSignedZero : Prop :=
  (Finset.univ.filter (fun p : Packed => magnitude p = 0)).card = 64 ∧
  (∀ (s : State) (p : Packed), s.RomsLoaded → magnitude p = 0 →
    exec (.decode p) s = .next { s with completed := s.completed ++
      [.decoded p (if p.getLsbD 5 then 0x8000000000000000#64 else 0x0000000000000000#64)] }) ∧
  (∀ (s : State) (x : Bits64) (p : Packed), s.RomsLoaded →
    exec (.encode x) s = .next { s with completed := s.completed ++ [.encoded x p true] } →
    magnitude p = 0 → p = 0x0000#16)

/-- 30_encoding.md R39, 41_decode.md R81 (inferences the spec marks as their own): a word with exponent code 16 decodes
to the same pattern as the word with code 0 and the same other bits, whatever the ROM holds; and no operand encodes to a
word with code 16. -/
def Obligations.CodeSixteenDecodesAsCodeZero : Prop :=
  (∀ (s : State) (p : Packed), exponentCode p = 16#5 →
    ∃ y : Bits64, exec (.decode p) s = .next { s with completed := s.completed ++ [.decoded p y] } ∧
      exec (.decode (p &&& 0xFFE0#16)) s =
        .next { s with completed := s.completed ++ [.decoded (p &&& 0xFFE0#16) y] }) ∧
  (∀ (s : State) (x : Bits64), s.RomsLoaded →
    ∃ (p : Packed) (ok : Bool), exec (.encode x) s = .next { s with completed := s.completed ++ [.encoded x p ok] } ∧
      exponentCode p ≠ 16#5)

/-- 41_decode.md R73, R74 (inferences the spec marks as its own): the biased index lies in 0..30, the mask changes
nothing, dropping it gives the same result for every word and ROM, and the result does not depend on `MULT[31]`. -/
def Obligations.TableIndexMaskChangesNothing : Prop :=
  ∀ (rom : MultRom) (p : Packed),
    0 ≤ biasedIndex p ∧ biasedIndex p ≤ 30 ∧ ((tableIndex p).val : Int) = biasedIndex p ∧
    decodeResultUnmasked rom p = decodeResult rom p ∧
    ∀ rom' : MultRom, (∀ k : Fin 32, k.val ≠ 31 → rom'[k] = rom[k]) → decodeResult rom' p = decodeResult rom p

/-! ### The two operations together -/

/-- 41_decode.md R83 (an inference the spec marks as its own): what ENCODE makes of the decoding of each canonical word.
Two words with magnitude 1000 overflow; six with magnitude 100 come back with magnitude 1000 one bucket down; the other
words with magnitude 1000, but for 0xFA15 and 0xFA35, come back with magnitude 100 one bucket up; every other word comes
back itself. -/
def Obligations.DecodeThenEncodeReturns : Prop :=
  ∀ p : Packed, Canonical p →
    let r := encodeResult dispatchContents (decodeResult multContents p)
    if p = 0xFA0F#16 ∨ p = 0xFA2F#16 then r = (0x0000#16, false)
    else if p ∈ [0x1914#16, 0x1915#16, 0x1919#16, 0x1934#16, 0x1935#16, 0x1939#16] then
      r.2 = true ∧ magnitude r.1 = 1000 ∧ valueSign r.1 = valueSign p ∧ signedIndex r.1 = signedIndex p - 1
    else if magnitude p = 1000 ∧ p ≠ 0xFA15#16 ∧ p ≠ 0xFA35#16 then
      r.2 = true ∧ magnitude r.1 = 100 ∧ valueSign r.1 = valueSign p ∧ signedIndex r.1 = signedIndex p + 1
    else r = (p, true)

/-- 40_encode.md R66, range coverage (an inference the spec marks as its own): for `e` in -15..13 and `b` in 1..999, both
`fmul(b, RN(10^e))` and `RN(b × 10^e)` encode with success, and decoding gives the operand back to within 0.001. -/
def Obligations.ThreeDigitNumbersRoundTrip : Prop :=
  ∀ (e : Int) (b : Nat), -15 ≤ e → e ≤ 13 → 1 ≤ b → b ≤ 999 →
    ∀ x ∈ [fmul (bits64OfNat b) (bits64OfDecimal false 1 e), bits64OfDecimal false b e],
      ∃ p : Packed, encodeResult dispatchContents x = (p, true) ∧
        |f64 (decodeResult multContents p) - f64 x| < 1 / 1000

/-! ### Runs -/

/-- 00_scope.md R5, 20_memory.md R25, 70_reset_and_hazards.md R103 (one queue served in order: DEDUCED, log entry 15;
that further steps change nothing: log entry 2, the model's choice): from any state, as many steps as there are requests
(or more) perform every request once, in order, each with the result its operand alone gives, whatever came before it,
and change nothing else. -/
def Obligations.RunServesEveryRequestInOrder : Prop :=
  ∀ (s : State) (n : Nat), s.pending.length ≤ n →
    Sys2Proof.core.run n s = .next { s with
      pending := [],
      completed := s.completed ++ s.pending.map (fun r => completionOf s.dispatch s.mult r.toInstr) }

/-- 20_memory.md R26 (an inference the spec marks as its own): performing the same requests in any other order yields
the same multiset of requests and results. -/
def Obligations.OrderOfRequestsDoesNotMatter : Prop :=
  ∀ (s : State) (reordered : List Request), s.pending.Perm reordered →
    ∃ t t' : State,
      Sys2Proof.core.run s.pending.length s = .next t ∧
      Sys2Proof.core.run s.pending.length { s with pending := reordered } = .next t' ∧
      t.completed.Perm t'.completed

/-- 30_encoding.md R30, 70_reset_and_hazards.md R104 (an inference and a decision of the spec; the single queue and the
schedule as an argument: DEDUCED, log entry 15): two units on separate
request paths, under any schedule that serves each of them often enough, return to each unit's requests, in order, the
results that the single queue returns. -/
def Obligations.SeparatePathsReturnTheSameResults : Prop :=
  ∀ (s : State) (schedule : List UnitName),
    s.toTwoPath.encPending.length ≤ schedule.count .encoder →
    s.toTwoPath.decPending.length ≤ schedule.count .decoder →
    ∃ t : State, Sys2Proof.core.run s.pending.length s = .next t ∧ s.toTwoPath.run schedule = t.toTwoPath

/-- 70_reset_and_hazards.md R101, R104 (that a read without a result faults: log entry 4, the model's choice after
93_implementation_defined.md ID9): no output can be read before its request completes; after the requests have been
performed, output number `n` of a unit is the result of that unit's request number `n`. -/
def Obligations.OutputsBelongToTheirRequests : Prop :=
  (∀ (n : Nat) (s : State), s.completed = [] →
    s.encOutput n = .error .outputNotProduced ∧ s.decOutput n = .error .outputNotProduced) ∧
  (∀ s t : State, s.completed = [] → Sys2Proof.core.run s.pending.length s = .next t →
    ∀ n : Nat,
      t.encOutput n = (match s.toTwoPath.encPending[n]? with
        | some x => .ok (encodeResult s.dispatch x)
        | none => .error .outputNotProduced) ∧
      t.decOutput n = (match s.toTwoPath.decPending[n]? with
        | some p => .ok (decodeResult s.mult p)
        | none => .error .outputNotProduced))

/-- 60_exceptions.md R97 (the spec's decision D20; each instance with its own copy of the ROMs: log entry 14, the
model's choice): an instance that takes a step becomes the state that `step` answers for it, so that one with a request
waiting performs its own oldest request; a step of one instance leaves every other as it was; and steps of two instances
commute. -/
def Obligations.InstancesShareNothing : Prop :=
  (∀ (j : Nat) (bank : List State) (s : State), bank[j]? = some s →
    (∃ t : State, step s = .next t ∧ (stepInstance j bank)[j]? = some t) ∧
    (∀ (r : Request) (rest : List Request), s.pending = r :: rest →
      (stepInstance j bank)[j]? = some { s with
        pending := rest, completed := s.completed ++ [completionOf s.dispatch s.mult r.toInstr] })) ∧
  (∀ (i j : Nat) (bank : List State), i ≠ j →
    (stepInstance i bank)[j]? = bank[j]? ∧
    stepInstance i (stepInstance j bank) = stepInstance j (stepInstance i bank))

/-! ### The invariant -/

/-- 70_reset_and_hazards.md R100, R102: the state after reset has its ROMs loaded and meets the invariant. -/
def Obligations.ResetMeetsTheInvariant : Prop :=
  State.reset.RomsLoaded ∧ State.reset.Inv

/-- 10_state.md R14, 30_encoding.md R40, 60_exceptions.md R90, 41_decode.md R78: from every state that meets the
invariant (the ROMs hold their constants; every recorded encode is a canonical word of an operand in range, or 0x0000
for a range error; every recorded decode is finite, with the word's sign, zero exactly for a zero magnitude), a step
leads to a state that meets it. -/
def Obligations.StepKeepsTheInvariant : Prop :=
  ∀ s t : State, s.Inv → step s = .next t → t.Inv

/-! ### Written and stored forms -/

/-- 30_encoding.md R45 (that hex digits are written in capitals: log entry 17, the model's choice): a request's line
reads back as that request. -/
def Obligations.RequestLinesReadBack : Prop :=
  ∀ i : Instr, readRequest (writeRequest i) = some i

/-- 20_memory.md R23: a packed word stored as bytes in either order, and so in the order `SERIAL_BYTE_ORDER` whatever it
is, reads back as itself in that order. -/
def Obligations.StoredWordsReadBack : Prop :=
  ∀ p : Packed,
    (∀ order : ByteOrder, deserializeAs order (serializeAs order p) = some p) ∧
    deserialize (serialize p) = some p
end

