-- ==== Sys2Proof/Laws/Float.lean ====
section
/-! SUPPORT. Small lemmas about the binary64 primitives. -/

namespace Sys2Proof.Machine

theorem scaleUp_pos {n : Nat} (u : Int) (h : 0 < n) : 0 < scaleUp n u :=
  Nat.mul_pos h (Nat.pow_pos (by decide))

theorem scaleUp_zero (u : Int) : scaleUp 0 u = 0 := Nat.zero_mul _

theorem magDen_pos (b : Bits64) : 0 < magDen b := scaleUp_pos _ (by decide)

theorem rn_zero (den : Nat) : rn 0 den = 0#63 := by
  simp [rn, rnBits]

theorem rn_of_lt {num den : Nat} (h : rnBits num den < 0x7FF0000000000000) :
    rn num den = BitVec.ofNat 63 (rnBits num den) := by
  simp only [rn, if_pos h]

/-- The product of two finite operands is one rounding of the exact product. -/
theorem fmul_of_finite {a b : Bits64} (ha : isFinite a = true) (hb : isFinite b = true) :
    fmul a b = withSign (signBit a ^^ signBit b) (rn (magNum a * magNum b) (magDen a * magDen b)) := by
  simp only [fmul, ha, hb, Bool.and_self, if_true]

theorem signedNum_of_nonneg {b : Bits64} (h : signBit b = false) : signedNum b = magNum b := by
  simp [signedNum, h]

theorem f64_of_nonneg {b : Bits64} (h : signBit b = false) : f64 b = (magNum b : ℚ) / magDen b := by
  simp [f64, signedNum_of_nonneg h]

theorem roundHalfUp_of_finite {v : Bits64} (h : isFinite v = true) :
    roundHalfUp v = signedNum v / (magDen v : Int)
      + (if (magDen v : Int) ≤ 2 * (signedNum v % (magDen v : Int)) then 1 else 0) := by
  simp only [roundHalfUp, h, if_true]

end Sys2Proof.Machine
end

