-- ==== Sys2Proof/Laws/State.lean ====
section
/-! SUPPORT. One lemma per field per update of the state, so that no proof unfolds a record update. -/

namespace Sys2Proof.Machine

@[simp] theorem State.complete_dispatch (c : Completion) (s : State) : (s.complete c).dispatch = s.dispatch := rfl
@[simp] theorem State.complete_mult (c : Completion) (s : State) : (s.complete c).mult = s.mult := rfl
@[simp] theorem State.complete_pending (c : Completion) (s : State) : (s.complete c).pending = s.pending := rfl
@[simp] theorem State.complete_completed (c : Completion) (s : State) :
    (s.complete c).completed = s.completed ++ [c] := rfl

@[simp] theorem State.enqueue_dispatch (r : Request) (s : State) : (s.enqueue r).dispatch = s.dispatch := rfl
@[simp] theorem State.enqueue_mult (r : Request) (s : State) : (s.enqueue r).mult = s.mult := rfl
@[simp] theorem State.enqueue_pending (r : Request) (s : State) : (s.enqueue r).pending = s.pending ++ [r] := rfl
@[simp] theorem State.enqueue_completed (r : Request) (s : State) : (s.enqueue r).completed = s.completed := rfl

@[simp] theorem State.enqueueFirst_dispatch (r : Request) (s : State) :
    (s.enqueueFirst r).dispatch = s.dispatch := rfl
@[simp] theorem State.enqueueFirst_mult (r : Request) (s : State) : (s.enqueueFirst r).mult = s.mult := rfl
@[simp] theorem State.enqueueFirst_pending (r : Request) (s : State) :
    (s.enqueueFirst r).pending = r :: s.pending := rfl
@[simp] theorem State.enqueueFirst_completed (r : Request) (s : State) :
    (s.enqueueFirst r).completed = s.completed := rfl

@[simp] theorem State.assertReset_dispatch (s : State) : s.assertReset.dispatch = s.dispatch := rfl
@[simp] theorem State.assertReset_mult (s : State) : s.assertReset.mult = s.mult := rfl
@[simp] theorem State.assertReset_pending (s : State) : s.assertReset.pending = s.pending := rfl
@[simp] theorem State.assertReset_completed (s : State) : s.assertReset.completed = s.completed := rfl

@[simp] theorem State.reset_dispatch : State.reset.dispatch = dispatchContents := rfl
@[simp] theorem State.reset_mult : State.reset.mult = multContents := rfl
@[simp] theorem State.reset_pending : State.reset.pending = [] := rfl
@[simp] theorem State.reset_completed : State.reset.completed = [] := rfl

/-- Two states with equal fields are equal. -/
theorem State.eq_of_fields {s t : State} (hd : s.dispatch = t.dispatch) (hm : s.mult = t.mult)
    (hp : s.pending = t.pending) (hc : s.completed = t.completed) : s = t := by
  cases s; cases t; simp_all

end Sys2Proof.Machine
end

