-- ==== Sys2Proof/Laws/Ops.lean ====
section
/-! SUPPORT. One lemma per shared operation that says once everything it can do; proofs cite these instead of unfolding
the operation. -/

namespace Sys2Proof.Machine

/-! ### Consuming and presenting requests -/

theorem State.takeRequest_nil {s : State} (h : s.pending = []) : s.takeRequest = none := by
  simp [State.takeRequest, h]

theorem State.takeRequest_cons {s : State} {r : Request} {rest : List Request} (h : s.pending = r :: rest) :
    s.takeRequest = some (r, { s with pending := rest }) := by
  simp [State.takeRequest, h]

/-- What `takeRequest` can do: there was an oldest request, and the new state lacks it and nothing else. -/
theorem State.takeRequest_some {s t : State} {r : Request} (h : s.takeRequest = some (r, t)) :
    s.pending = r :: t.pending ∧ t.dispatch = s.dispatch ∧ t.mult = s.mult ∧ t.completed = s.completed := by
  cases hp : s.pending with
  | nil => simp [State.takeRequest, hp] at h
  | cons r' rest =>
    simp only [State.takeRequest, hp, Option.some.injEq, Prod.mk.injEq] at h
    obtain ⟨rfl, rfl⟩ := h
    exact ⟨rfl, rfl, rfl, rfl⟩

/-- What reading a string of bits as a request can do, by the shape of the string. -/
theorem requestOfBits_ok {bits : List Bool} {r : Request} (h : requestOfBits bits = .ok r) :
    ∃ op operand, bits = op :: operand ∧ operand.length = portWidth op := by
  cases bits with
  | nil => simp [requestOfBits] at h
  | cons op operand =>
    refine ⟨op, operand, rfl, ?_⟩
    by_contra hne
    simp [requestOfBits, hne] at h

/-- What presenting a string of bits can do when it is accepted: its request is queued last. -/
theorem State.present_next {bits : List Bool} {s t : State} (h : State.present bits s = .next t) :
    ∃ r, requestOfBits bits = .ok r ∧ t = s.enqueue r := by
  unfold State.present at h
  split at h
  · next r hr => exact ⟨r, hr, by injection h with h; exact h.symm⟩
  · cases h
  · cases h

/-! ### Operations and steps -/

/-- Performing an operation records its result, and does nothing else. -/
theorem exec_eq_complete (i : Instr) (s : State) :
    exec i s = .next (s.complete (completionOf s.dispatch s.mult i)) := by
  cases i <;> rfl

theorem step_of_nil {s : State} (h : s.pending = []) : step s = .next s := by
  simp [step, State.takeRequest_nil h]

theorem step_of_cons {s : State} {r : Request} {rest : List Request} (h : s.pending = r :: rest) :
    step s = .next { s with
      pending := rest, completed := s.completed ++ [completionOf s.dispatch s.mult r.toInstr] } := by
  simp only [step, State.takeRequest_cons h, exec_eq_complete]
  rfl

/-- What a step can do: nothing, when no request waits; or perform the oldest request and record its result. -/
theorem step_cases {s t : State} (h : step s = .next t) :
    (s.pending = [] ∧ t = s) ∨
    ∃ r rest, s.pending = r :: rest ∧
      t = { s with pending := rest, completed := s.completed ++ [completionOf s.dispatch s.mult r.toInstr] } := by
  cases hp : s.pending with
  | nil =>
    rw [step_of_nil hp] at h
    injection h with h
    exact .inl ⟨rfl, h.symm⟩
  | cons r rest =>
    rw [step_of_cons hp] at h
    injection h with h
    exact .inr ⟨r, rest, rfl, h.symm⟩

theorem run_zero (s : State) : Sys2Proof.core.run 0 s = .next s := rfl

/-- A run at a state with no request waiting goes on from the same state. -/
theorem run_succ_of_nil {s : State} (n : Nat) (h : s.pending = []) :
    Sys2Proof.core.run (n + 1) s = Sys2Proof.core.run n s := by
  have hs : Sys2Proof.core.step s = .next s := step_of_nil h
  simp only [Host.Core.run, hs]

/-- A run at a state with a request waiting performs the oldest and goes on. -/
theorem run_succ_of_cons {s : State} {r : Request} {rest : List Request} (n : Nat) (h : s.pending = r :: rest) :
    Sys2Proof.core.run (n + 1) s = Sys2Proof.core.run n ({ s with
      pending := rest, completed := s.completed ++ [completionOf s.dispatch s.mult r.toInstr] } : State) := by
  have hs : Sys2Proof.core.step s = .next ({ s with
      pending := rest, completed := s.completed ++ [completionOf s.dispatch s.mult r.toInstr] } : State) :=
    step_of_cons h
  simp only [Host.Core.run, hs]

/-! ### Reading outputs -/

theorem State.encOutput_ok {n : Nat} {s : State} {r : Packed × Bool} (h : s.encResults[n]? = some r) :
    s.encOutput n = .ok r := by
  simp [State.encOutput, h]

theorem State.encOutput_error {n : Nat} {s : State} (h : s.encResults[n]? = none) :
    s.encOutput n = .error .outputNotProduced := by
  simp [State.encOutput, h]

theorem State.decOutput_ok {n : Nat} {s : State} {y : Bits64} (h : s.decResults[n]? = some y) :
    s.decOutput n = .ok y := by
  simp [State.decOutput, h]

theorem State.decOutput_error {n : Nat} {s : State} (h : s.decResults[n]? = none) :
    s.decOutput n = .error .outputNotProduced := by
  simp [State.decOutput, h]

/-! ### The exits of an ENCODE -/

theorem classify_zero (rom : DispatchRom) : classify rom 0#64 = .zero := rfl

theorem classify_overflow {rom : DispatchRom} {a : Bits64} (h0 : a ≠ 0#64) (h : rom.bound ≤ a) :
    classify rom a = .overflow := by
  simp [classify, h0, h]

theorem classify_bucket {rom : DispatchRom} {a : Bits64} {row : DispatchRow} (h0 : a ≠ 0#64) (h : ¬ rom.bound ≤ a)
    (hrow : selectBucket rom a = some row) : classify rom a = .bucket row := by
  simp only [classify, if_neg h0, if_neg h, hrow]

theorem classify_underflow {rom : DispatchRom} {a : Bits64} (h0 : a ≠ 0#64) (h : ¬ rom.bound ≤ a)
    (hrow : selectBucket rom a = none) : classify rom a = .underflow := by
  simp only [classify, if_neg h0, if_neg h, hrow]

/-- What the tests of an ENCODE can come to: the first condition that holds decides the exit. -/
theorem classify_cases (rom : DispatchRom) (a : Bits64) :
    (a = 0#64 ∧ classify rom a = .zero) ∨
    (a ≠ 0#64 ∧ rom.bound ≤ a ∧ classify rom a = .overflow) ∨
    (∃ row, a ≠ 0#64 ∧ ¬ rom.bound ≤ a ∧ selectBucket rom a = some row ∧ classify rom a = .bucket row) ∨
    (a ≠ 0#64 ∧ ¬ rom.bound ≤ a ∧ selectBucket rom a = none ∧ classify rom a = .underflow) := by
  by_cases h0 : a = 0#64
  · exact .inl ⟨h0, by rw [h0, classify_zero]⟩
  by_cases h : rom.bound ≤ a
  · exact .inr (.inl ⟨h0, h, classify_overflow h0 h⟩)
  cases hrow : selectBucket rom a with
  | none => exact .inr (.inr (.inr ⟨h0, h, rfl, classify_underflow h0 h hrow⟩))
  | some row => exact .inr (.inr (.inl ⟨row, h0, h, rfl, classify_bucket h0 h hrow⟩))

/-- The selected row is a row of the ROM whose threshold the magnitude meets or exceeds. -/
theorem selectBucket_some {rom : DispatchRom} {a : Bits64} {row : DispatchRow} (h : selectBucket rom a = some row) :
    row ∈ rom.rows.toList ∧ row.thr ≤ a :=
  ⟨List.mem_of_find?_eq_some h, by simpa using List.find?_some h⟩

/-- No row is selected exactly when the magnitude is below every threshold. -/
theorem selectBucket_none {rom : DispatchRom} {a : Bits64} :
    selectBucket rom a = none ↔ ∀ row ∈ rom.rows.toList, ¬ row.thr ≤ a := by
  simp [selectBucket]

end Sys2Proof.Machine
end

