-- ==== Sys2Proof/Laws/PerInstr.lean ====
section
/-! SUPPORT. Statements about every operation as a request, one lemma per constructor of `Instr`. -/

namespace Sys2Proof.Laws

theorem length_bitsOfNat (n v : Nat) : (bitsOfNat n v).length = n := by
  induction n generalizing v with
  | zero => rfl
  | succ n ih => simp [bitsOfNat, ih]

/-- The request of an operation has exactly the select bit and the selected port's bits, so it is well-formed
(20_memory.md R24). -/
def RequestShape.Statement (i : Instr) : Prop :=
  (encodeBits i).length = 1 + portWidth (i.toRequest.op == 1#1) ∧ i.wellFormed = true

theorem RequestShape.encode (x : Bits64) : RequestShape.Statement (.encode x) := by
  simp [RequestShape.Statement, Instr.wellFormed, requestWellFormed, hasSelect, operandWidthOk, encodeBits,
    length_bitsOfNat, Instr.toRequest, portWidth]

theorem RequestShape.decode (p : Packed) : RequestShape.Statement (.decode p) := by
  simp [RequestShape.Statement, Instr.wellFormed, requestWellFormed, hasSelect, operandWidthOk, encodeBits,
    length_bitsOfNat, Instr.toRequest, portWidth]

end Sys2Proof.Laws
end

