-- ==== Sys2Proof/Laws/Units.lean ====
section
/-! SUPPORT. What the other arrangements can do: a unit serving its own path, a schedule, and a step of one instance. -/

namespace Sys2Proof.Machine

theorem TwoPath.serve_encoder_nil {m : TwoPath} (h : m.encPending = []) : m.serve .encoder = m := by
  simp [TwoPath.serve, h]

theorem TwoPath.serve_encoder_cons {m : TwoPath} {x : Bits64} {rest : List Bits64} (h : m.encPending = x :: rest) :
    m.serve .encoder =
      { m with encPending := rest, encResults := m.encResults ++ [encodeResult m.dispatch x] } := by
  simp [TwoPath.serve, h]

theorem TwoPath.serve_decoder_nil {m : TwoPath} (h : m.decPending = []) : m.serve .decoder = m := by
  simp [TwoPath.serve, h]

theorem TwoPath.serve_decoder_cons {m : TwoPath} {p : Packed} {rest : List Packed} (h : m.decPending = p :: rest) :
    m.serve .decoder =
      { m with decPending := rest, decResults := m.decResults ++ [decodeResult m.mult p] } := by
  simp [TwoPath.serve, h]

@[simp] theorem TwoPath.run_nil (m : TwoPath) : m.run [] = m := rfl

@[simp] theorem TwoPath.run_cons (m : TwoPath) (u : UnitName) (schedule : List UnitName) :
    m.run (u :: schedule) = (m.serve u).run schedule := rfl

/-- A step of an instance puts the state that `step` answers for it in its place in the list. -/
theorem stepInstance_eq_set {j : Nat} {bank : List State} {s t : State} (h : bank[j]? = some s)
    (hs : step s = .next t) : stepInstance j bank = bank.set j t := by
  simp only [stepInstance, h, hs]

/-- A step of an instance that the list does not have changes nothing. -/
theorem stepInstance_of_none {j : Nat} {bank : List State} (h : bank[j]? = none) : stepInstance j bank = bank := by
  simp only [stepInstance, h]

end Sys2Proof.Machine
end

