-- ==== Sys2Proof/Tests/Slice0.lean ====
section
/-! SUPPORT. Tests: what the form checks refuse, requests written out bit by bit, results taken from the tables of
95_test_vectors.md, and for each statement with hypotheses a concrete state and operands that meet them. -/

namespace Sys2Proof.Tests

open Sys2Proof.Machine

/-- The loaded codec with the given operations waiting. -/
def waiting (ops : List Instr) : State := { State.reset with pending := ops.map Instr.toRequest }

/-- The last recorded result of a next state. -/
def lastRecord : Host.Outcome State Fault Refusal → Option Completion
  | .next t => t.completed.getLast?
  | .fault _ => none
  | .refused _ => none

theorem waiting_loaded (ops : List Instr) : (waiting ops).RomsLoaded := ⟨rfl, rfl⟩

/-! ### Form checks: an ill-formed string of bits for each -/

theorem test_no_select_refused : hasSelect [] = false := by decide
theorem test_narrow_encode_operand_refused : operandWidthOk (false :: List.replicate 63 true) = false := by decide
theorem test_wide_encode_operand_refused : operandWidthOk (false :: List.replicate 65 true) = false := by decide
theorem test_narrow_decode_operand_refused : operandWidthOk (true :: List.replicate 15 true) = false := by decide
theorem test_wide_decode_operand_refused : operandWidthOk (true :: List.replicate 17 true) = false := by decide
theorem test_ill_formed_refused : requestWellFormed [] = false ∧ requestWellFormed [true] = false := by decide

/-! ### Requests written out bit by bit (30_encoding.md R30; 95_test_vectors.md P1, P2) -/

theorem test_decode_word_encode_one_and_a_half :
    (decodeBits (false :: (List.replicate 51 false ++ List.replicate 11 true ++ [false, false]))).toOption
      = some (.encode 0x3FF8000000000000#64) := by decide

theorem test_decode_word_decode_6924 :
    (decodeBits [true, false, false, true, false, false, true, false, false, true, false, false, true, false, true,
      true, false]).toOption = some (.decode 0x6924#16) := by decide

theorem test_table_row_encode : decodeTableWord 8 0 = some (.encode 0#64) := by decide
theorem test_table_row_decode : decodeTableWord 8 1 = some (.decode 0#16) := by decide
theorem test_table_word_too_wide : decodeTableWord 24 (1 + 2 ^ 17) = none := by decide

/-! ### One step each (95_test_vectors.md E12, E4, D27, D24) -/

theorem test_encode_largest_below_bound :
    lastRecord (exec (.encode 0x4341C37937E07FFF#64) State.reset)
      = some (.encoded 0x4341C37937E07FFF#64 0xFA0F#16 true) := by decide

theorem test_encode_negative :
    lastRecord (exec (.encode 0xC0E4820000000000#64) State.reset)
      = some (.encoded 0xC0E4820000000000#64 0x6924#16 true) := by decide

theorem test_decode_inexact :
    lastRecord (exec (.decode 0x1914#16) State.reset) = some (.decoded 0x1914#16 0x3F1A36E2EB1C432C#64) := by decide

theorem test_decode_negative_smallest_exponent :
    lastRecord (exec (.decode 0xFFFF#16) State.reset) = some (.decoded 0xFFFF#16 0xBD07093188F542E2#64) := by decide

/-- The row's request, placed and performed in one step from reset (log entry 2). -/
theorem test_fetch_word_runs_next :
    lastRecord (step (State.reset.withFetchWord 24 (1 + 2 * 0x2580))) =
      some (.decoded 0x2580#16 0x3FF8000000000000#64) := by decide

/-! ### Lines (95_test_vectors.md P1, E9) -/

theorem test_read_decimal_line :
    readRequest ['E', 'N', 'C', ' ', '-', '4', '2', '0', '0', '0', '.', '0'] = some (.encode 0xC0E4820000000000#64) := by
  decide

theorem test_read_exponent_line :
    readRequest ['E', 'N', 'C', ' ', '7', 'e', '-', '1', '6'] = some (.encode 0x3CC9385C44DD7885#64) := by decide

/-! ### Witnesses: hypotheses of the statements that something meets -/

theorem witness_step : ∃ (s : State) (r : Request) (rest : List Request) (i : Instr),
    s.pending = r :: rest ∧ r.toInstr = i ∧ i.wellFormed = true :=
  ⟨waiting [.decode 0x6924#16, .encode 0#64], _, _, .decode 0x6924#16, rfl, rfl, by decide⟩

theorem witness_step_idle : (waiting []).pending = [] := rfl

theorem witness_select_bit : (Request.mk 0#1 0x3FF8000000000000#64 0#16).op = 0#1 ∧
    (Request.mk 1#1 0#64 0x6924#16).op = 1#1 := ⟨rfl, rfl⟩

theorem witness_wellFormed : (Instr.encode 0xFFFFFFFFFFFFFFFF#64).wellFormed = true ∧
    (Instr.decode 0xFFFF#16).wellFormed = true := ⟨(Laws.RequestShape.encode _).2, (Laws.RequestShape.decode _).2⟩

theorem witness_bits_decode : decodeBits (true :: List.replicate 16 true) = .ok (.decode 0xFFFF#16) := rfl

theorem witness_operand_widths :
    (List.replicate 64 true).length = (if false then 16 else 64) ∧
    (List.replicate 16 true).length = (if true then 16 else 64) ∧
    (List.replicate 63 true).length ≠ (if false then 16 else 64) ∧
    (List.replicate 17 true).length ≠ (if true then 16 else 64) := by decide

theorem witness_exec_next : ∃ t, exec (.decode 0x6924#16) (waiting []) = .next t := ⟨_, rfl⟩

theorem witness_run_next : ∃ t, Sys2Proof.core.run 2 (waiting [.decode 0x6924#16, .encode 0#64]) = .next t :=
  ⟨_, rfl⟩

theorem witness_present_next : ∃ t, State.present (true :: List.replicate 16 true) (waiting []) = .next t := ⟨_, rfl⟩

theorem witness_loaded : (waiting [.encode 0x3FF8000000000000#64, .decode 0x2580#16]).RomsLoaded := waiting_loaded _

theorem witness_signed_operand : absBits 0xBFF8000000000000#64 ≠ 0#64 ∧
    (encodeResult dispatchContents 0xBFF8000000000000#64).2 = true ∧
    (encodeResult dispatchContents 0xFFF0000000000000#64).2 = false := by decide

theorem witness_mult_index : (0 : Fin 32).val < 31 ∧ (30 : Fin 32).val < 31 := by decide

theorem witness_decades : ((-15 : Int) ≤ -15 ∧ (-15 : Int) ≤ 15) ∧ ((-15 : Int) ≤ 15 ∧ (15 : Int) ≤ 15) := by decide

theorem one_lt_rnLimit : (1 : ℚ) < rnLimit := by
  have h : (1 : ℚ) ≤ 2 ^ 970 := one_le_pow₀ (by norm_num)
  have h' : (1 : ℚ) < 2 ^ 54 - 1 := by norm_num
  exact lt_of_lt_of_le h' (le_mul_of_one_le_right (le_trans zero_le_one h'.le) h)

theorem witness_rounding : 0 < 10 ∧ ((1 : ℕ) : ℚ) / ((10 : ℕ) : ℚ) < rnLimit :=
  ⟨by decide, lt_trans (by norm_num) one_lt_rnLimit⟩

theorem f64_one : f64 0x3FF0000000000000#64 = 1 := by
  have hn : signedNum 0x3FF0000000000000#64 = 2 ^ 52 := by decide
  have hd : magDen 0x3FF0000000000000#64 = 2 ^ 52 := by decide
  simp [f64, hn, hd]

theorem witness_product : isFinite 0x3FF0000000000000#64 = true ∧
    |f64 0x3FF0000000000000#64 * f64 0x3FF0000000000000#64| < rnLimit :=
  ⟨by decide, by rw [f64_one]; simpa using one_lt_rnLimit⟩

/-- The largest finite pattern and +infinity, and two finite patterns. -/
theorem witness_bit_order :
    (signBit 0x7FEFFFFFFFFFFFFF#64 = false ∧ isNaN 0x7FEFFFFFFFFFFFFF#64 = false ∧
      isFinite 0x7FEFFFFFFFFFFFFF#64 = true) ∧
    (signBit 0x7FF0000000000000#64 = false ∧ isNaN 0x7FF0000000000000#64 = false) ∧
    (signBit 0#64 = false ∧ isNaN 0#64 = false ∧ isFinite 0#64 = true) := by decide

theorem witness_quantization : isFinite 0x4059200000000000#64 = true ∧ signBit 0x4059200000000000#64 = false := by
  decide

theorem witness_code_row : ∃ row ∈ exponentCodeTable, row.1 ≠ 16 := ⟨(31, -15, 0, -17), by decide, by decide⟩

theorem witness_zero_operand : (0x8000000000000000#64).extractLsb' 0 63 = 0#63 := by decide

/-- The bound itself, and the largest pattern of all. -/
theorem witness_overflow : (waiting []).RomsLoaded ∧
    0x4341C37937E08000#64 ≤ ((0x4341C37937E08000#64).extractLsb' 0 63).setWidth 64 ∧
    0x4341C37937E08000#64 ≤ ((0xFFFFFFFFFFFFFFFF#64).extractLsb' 0 63).setWidth 64 :=
  ⟨waiting_loaded _, by decide, by decide⟩

/-- The largest and smallest failing magnitudes, the largest subnormal, and the threshold itself. -/
theorem witness_underflow : (waiting []).RomsLoaded ∧
    (0#64 < absBits 0x3CD203AF9EE75615#64 ∧ absBits 0x3CD203AF9EE75615#64 < 0x3CD203AF9EE75616#64) ∧
    (0#64 < absBits 1#64 ∧ absBits 1#64 < 0x3CD203AF9EE75616#64) ∧
    isSubnormal 0x800FFFFFFFFFFFFF#64 = true ∧ isSubnormal 1#64 = true ∧
    absBits 0xBCD203AF9EE75616#64 = 0x3CD203AF9EE75616#64 :=
  ⟨waiting_loaded _, by decide, by decide, by decide, by decide, by decide⟩

theorem witness_infinity_nan :
    isInf 0xFFF0000000000000#64 = true ∧ isNaN 0x7FF0000000000001#64 = true ∧ isSubnormal 1#64 = true := by decide

/-- The two ends of the range. -/
theorem witness_bucket_range :
    (0x3CD203AF9EE75616#64 ≤ 0x3CD203AF9EE75616#64 ∧ 0x3CD203AF9EE75616#64 < 0x4341C37937E08000#64) ∧
    (0x3CD203AF9EE75616#64 ≤ 0x4341C37937E07FFF#64 ∧ 0x4341C37937E07FFF#64 < 0x4341C37937E08000#64) := by decide

/-- Bucket -15 at its lower end and bucket 15 at its upper end. -/
theorem witness_in_bucket : ∃ (s : State) (x : Bits64) (d : Int) (row : DispatchRow) (hi : Bits64), s.RomsLoaded ∧
    s.dispatch.row? d = some row ∧ s.dispatch.thr? (d + 1) = some hi ∧ row.thr ≤ absBits x ∧ absBits x < hi :=
  ⟨waiting [], 0xBCD203AF9EE75616#64, -15, _, _, waiting_loaded _, rfl, rfl, by decide, by decide⟩

theorem witness_in_top_bucket : ∃ (a : Bits64) (d : Int) (row : DispatchRow) (hi : Bits64),
    dispatchContents.row? d = some row ∧ dispatchContents.thr? (d + 1) = some hi ∧ row.thr ≤ a ∧ a < hi :=
  ⟨0x4341C37937E07FFF#64, 15, _, _, rfl, rfl, by decide, by decide⟩

theorem witness_falling_thresholds : dispatchContents.rows.toList.Pairwise (fun r r' => r'.thr < r.thr) := by decide

theorem witness_convertible : 2 ^ 53 - 1 < 2 ^ 53 := by decide

theorem witness_nonzero_words : magnitude 0x005F#16 ≠ 0 ∧ magnitude 0xFFCF#16 ≠ 0 := by decide

theorem witness_zero_words : magnitude 0x0000#16 = 0 ∧ magnitude 0x003F#16 = 0 := by decide

theorem witness_zero_word_emitted : exec (.encode 0#64) (waiting []) =
    .next { waiting [] with completed := (waiting []).completed ++ [.encoded 0#64 0x0000#16 true] } ∧
    magnitude 0x0000#16 = 0 := ⟨rfl, by decide⟩

theorem witness_code_sixteen : exponentCode 0x0050#16 = 16#5 := by decide

theorem witness_rom_but_for_31 : ∃ rom' : MultRom,
    rom' ≠ multContents ∧ ∀ k : Fin 32, k.val ≠ 31 → rom'[k] = multContents[k] :=
  ⟨multContents.set 31 1#64, by decide, by decide⟩

/-- A word for each clause: overflow, one bucket down, one bucket up, and the words that return themselves, among them
0xFA15 and 0xFA35, which share their magnitude with those that move up. -/
theorem witness_canonical : (Canonical 0xFA0F#16 ∧ Canonical 0xFA2F#16) ∧ (Canonical 0x1914#16 ∧ Canonical 0x1939#16) ∧
    (Canonical 0xFA00#16 ∧ Canonical 0xFA3F#16 ∧ magnitude 0xFA3F#16 = 1000) ∧
    (Canonical 0x0000#16 ∧ Canonical 0x1900#16 ∧ Canonical 0xFA15#16 ∧ Canonical 0xFA35#16 ∧
      magnitude 0xFA15#16 = 1000) := by decide

/-- The exits an ENCODE takes, at the operands where they meet (95_test_vectors.md E2, E11, E12, E6, E7). -/
theorem witness_exits :
    classify dispatchContents (absBits 0x8000000000000000#64) = .zero ∧
    classify dispatchContents (absBits 0x4341C37937E08000#64) = .overflow ∧
    (dispatchContents.row? 15).map EncodeExit.bucket = some (classify dispatchContents (absBits 0x4341C37937E07FFF#64)) ∧
    (dispatchContents.row? (-15)).map EncodeExit.bucket =
      some (classify dispatchContents (absBits 0x3CD203AF9EE75616#64)) ∧
    classify dispatchContents (absBits 0x3CD203AF9EE75615#64) = .underflow := by decide

theorem witness_three_digits : ((-15 : Int) ≤ -15 ∧ (-15 : Int) ≤ 13 ∧ 1 ≤ 1 ∧ 1 ≤ 999) ∧
    ((-15 : Int) ≤ 13 ∧ (13 : Int) ≤ 13 ∧ 1 ≤ 999 ∧ 999 ≤ 999) := by decide

theorem witness_run_length : (waiting [.encode 1#64, .decode 1#16]).pending.length ≤ 2 := by decide

theorem witness_reordered : ∃ (s : State) (l : List Request), s.pending ≠ l ∧ s.pending.Perm l :=
  ⟨waiting [.encode 1#64, .decode 1#16], [Instr.toRequest (.decode 1#16), Instr.toRequest (.encode 1#64)],
    by decide, List.Perm.swap _ _ _⟩

theorem witness_schedule :
    (waiting [.encode 1#64, .decode 1#16]).toTwoPath.encPending.length ≤
      [UnitName.decoder, UnitName.encoder].count .encoder ∧
    (waiting [.encode 1#64, .decode 1#16]).toTwoPath.decPending.length ≤
      [UnitName.decoder, UnitName.encoder].count .decoder := by decide

theorem witness_nothing_recorded : (waiting [.decode 1#16]).completed = [] ∧
    ∃ t, Sys2Proof.core.run (waiting [.decode 1#16]).pending.length (waiting [.decode 1#16]) = .next t :=
  ⟨rfl, _, rfl⟩

/-- Two instances, the first with a request waiting and the second without. -/
theorem witness_two_instances : (0 : Nat) ≠ 1 ∧
    [waiting [.encode 1#64], waiting []][0]? = some (waiting [.encode 1#64]) ∧
    [waiting [.encode 1#64], waiting []][1]? = some (waiting []) ∧
    (waiting [.encode 1#64]).pending = [Instr.toRequest (.encode 1#64)] := by decide

/-- A loaded state with a legal record and a request waiting, which a step leads on from. -/
theorem witness_invariant : ∃ s t : State, s.Inv ∧ step s = .next t :=
  ⟨{ waiting [.encode 0#64] with completed := [.encoded 1#64 0x0000#16 false] }, _,
    { loaded := ⟨rfl, rfl⟩
      legal := by
        intro c hc
        obtain rfl : c = .encoded 1#64 0x0000#16 false := by simpa using hc
        exact ⟨by decide, rfl⟩ }, rfl⟩

end Sys2Proof.Tests
end

/-! Proofs of the family 10_state.md: the ROMs never change, and what the multiplier ROM holds. -/

namespace Sys2Proof.Machine

/-! ### Runs -/

/-- What every step keeps, a run of any length keeps. -/
theorem run_keeps {P : State → Prop} (hstep : ∀ s t : State, P s → step s = .next t → P t)
    {n : Nat} {s t : State} (hs : P s) (h : Sys2Proof.core.run n s = .next t) : P t := by
  induction n generalizing s with
  | zero =>
    rw [run_zero] at h
    injection h with h
    exact h ▸ hs
  | succ n ih =>
    cases hp : s.pending with
    | nil => exact ih hs (run_succ_of_nil n hp ▸ h)
    | cons r rest => exact ih (hstep _ _ hs (step_of_cons hp)) (run_succ_of_cons n hp ▸ h)

/-! ### The ROMs are never written (10_state.md R14) -/

theorem exec_keeps_roms {i : Instr} {s t : State} (h : exec i s = .next t) :
    t.dispatch = s.dispatch ∧ t.mult = s.mult := by
  rw [exec_eq_complete] at h
  injection h with h
  subst h
  exact ⟨State.complete_dispatch _ s, State.complete_mult _ s⟩

theorem step_keeps_roms {s t : State} (h : step s = .next t) : t.dispatch = s.dispatch ∧ t.mult = s.mult := by
  obtain ⟨-, rfl⟩ | ⟨r, rest, -, rfl⟩ := step_cases h
  · exact ⟨rfl, rfl⟩
  · exact ⟨rfl, rfl⟩

theorem run_keeps_roms {n : Nat} {s t : State} (h : Sys2Proof.core.run n s = .next t) :
    t.dispatch = s.dispatch ∧ t.mult = s.mult := by
  refine run_keeps (P := fun a => a.dispatch = s.dispatch ∧ a.mult = s.mult) ?_ ⟨rfl, rfl⟩ h
  intro a b ⟨hd, hm⟩ hab
  obtain ⟨hd', hm'⟩ := step_keeps_roms hab
  exact ⟨hd'.trans hd, hm'.trans hm⟩

theorem present_keeps_roms {bits : List Bool} {s t : State} (h : State.present bits s = .next t) :
    t.dispatch = s.dispatch ∧ t.mult = s.mult := by
  obtain ⟨r, -, rfl⟩ := State.present_next h
  exact ⟨State.enqueue_dispatch r s, State.enqueue_mult r s⟩

/-- Settles O6: an operation, a step and a presented request each change a list of requests or results only; runs follow
by induction on their length. -/
theorem romContentsNeverChange : Obligations.RomContentsNeverChange :=
  ⟨fun _ _ _ => exec_keeps_roms, fun _ _ _ => run_keeps_roms, fun _ _ _ => present_keeps_roms,
    fun s => ⟨State.assertReset_dispatch s, State.assertReset_mult s⟩⟩

/-! ### The value of a pattern: its significand times a power of two -/

/-- An integer power is a ratio of two natural powers, of which one is 1. -/
theorem zpow_eq_pow_div_pow {a : ℚ} (ha : a ≠ 0) (e : Int) : a ^ e = a ^ e.toNat / a ^ (-e).toNat := by
  rw [← zpow_natCast, ← zpow_natCast, ← zpow_sub₀ ha, Int.toNat_sub_toNat_neg]

/-- The two halves of a multiplication by `2^u`, put together. -/
theorem scaleUp_div_scaleUp (n m : Nat) (u : Int) :
    (scaleUp n u : ℚ) / scaleUp m (-u) = (n : ℚ) / m * 2 ^ u := by
  rw [zpow_eq_pow_div_pow two_ne_zero]
  simp only [scaleUp]
  push_cast
  exact mul_div_mul_comm _ _ _ _

/-- A ratio in units of `2^u`. -/
theorem div_eq_scaleUp_div_scaleUp_mul (num den : Nat) (u : Int) :
    (num : ℚ) / den = (scaleUp num (-u) : ℚ) / scaleUp den u * 2 ^ u := by
  have h := scaleUp_div_scaleUp num den (-u)
  rw [neg_neg] at h
  rw [h, mul_assoc, ← zpow_add₀ two_ne_zero, neg_add_cancel, zpow_zero, mul_one]

theorem magNum_div_magDen (b : Bits64) : (magNum b : ℚ) / magDen b = significand b * 2 ^ unitExponent b := by
  simpa [magNum, magDen] using scaleUp_div_scaleUp (significand b) 1 (unitExponent b)

theorem f64_eq_significand_of_nonneg {b : Bits64} (h : signBit b = false) :
    f64 b = significand b * 2 ^ unitExponent b := by
  rw [f64_of_nonneg h, magNum_div_magDen]

/-- With its sign, a value is an integer of the significand's size times the power of two. -/
theorem f64_eq_int_mul (b : Bits64) :
    ∃ n : Int, n.natAbs = significand b ∧ f64 b = n * 2 ^ unitExponent b := by
  cases h : signBit b with
  | false => exact ⟨significand b, by simp, by simpa using f64_eq_significand_of_nonneg h⟩
  | true => exact ⟨-significand b, by simp, by simp [f64, signedNum, h, neg_div, magNum_div_magDen]⟩

theorem significand_lt (b : Bits64) : significand b < 2 ^ 53 := by
  have h : fracField b < 2 ^ 52 := BitVec.isLt _
  unfold significand
  split <;> omega

theorem neg_1074_le_unitExponent (b : Bits64) : -1074 ≤ unitExponent b := by
  unfold unitExponent
  omega

/-! ### A test for `NearestEven`

Around a real number whose last place is `2^u`, the binary64 values are the multiples of `2^u`; the values off that grid
are all below `2^52 · 2^u`. -/

/-- A value is a multiple of `2^u`, or it lies below every number whose last place is `2^u`. -/
theorem f64_on_grid_or_small (c : Bits64) (u : Int) :
    (∃ n : Int, f64 c = n * 2 ^ u) ∨ (-1074 < u ∧ |f64 c| < 2 ^ 52 * 2 ^ u) := by
  obtain ⟨n, hn, hc⟩ := f64_eq_int_mul c
  by_cases hu : u ≤ unitExponent c
  · left
    obtain ⟨k, hk⟩ := Int.le.dest hu
    refine ⟨n * 2 ^ k, ?_⟩
    rw [hc, ← hk, zpow_add₀ two_ne_zero, zpow_natCast]
    push_cast
    ring
  · right
    have hlow := neg_1074_le_unitExponent c
    refine ⟨by omega, ?_⟩
    have hn' : |(n : ℚ)| < 2 ^ 53 := by
      rw [← Int.cast_abs, Int.abs_eq_natAbs, hn]
      exact_mod_cast significand_lt c
    have hpow : (2 : ℚ) ^ unitExponent c ≤ 2 ^ (u - 1) := zpow_le_zpow_right₀ one_le_two (by omega)
    calc |f64 c| = |(n : ℚ)| * 2 ^ unitExponent c := by rw [hc, abs_mul, abs_of_pos (a := (2 : ℚ) ^ _) (by positivity)]
      _ < 2 ^ 53 * 2 ^ unitExponent c := mul_lt_mul_of_pos_right hn' (by positivity)
      _ ≤ 2 ^ 53 * 2 ^ (u - 1) := mul_le_mul_of_nonneg_left hpow (by positivity)
      _ = 2 ^ 52 * 2 ^ u := by rw [zpow_sub_one₀ two_ne_zero]; ring

/-- An integer other than one within 1/2 of `x` is at least 1/2 away from `x`. -/
theorem half_le_of_ne_nearest {m n : Int} {x : ℚ} (hm : |m - x| ≤ 1 / 2) (hne : n ≠ m) : 1 / 2 ≤ |n - x| := by
  have h1 : (1 : ℚ) ≤ |(n : ℚ) - m| := by exact_mod_cast Int.one_le_abs (sub_ne_zero.mpr hne)
  have h2 : |(n : ℚ) - m| ≤ |n - x| + |x - m| := abs_sub_le _ _ _
  rw [abs_sub_comm x] at h2
  linarith

/-- Every value but the nearest multiple `m · 2^u` of the last place is half a place away, or farther than it. -/
theorem half_le_or_lt_of_ne {m u : Int} {x : ℚ} (hm : |m - x| ≤ 1 / 2) (hx : u = -1074 ∨ 2 ^ 52 ≤ x) {c : Bits64}
    (hne : f64 c ≠ m * 2 ^ u) : 1 / 2 ≤ |f64 c / 2 ^ u - x| ∨ |m - x| < |f64 c / 2 ^ u - x| := by
  have hpos : (0 : ℚ) < 2 ^ u := by positivity
  obtain ⟨n, hn⟩ | ⟨hu, hsmall⟩ := f64_on_grid_or_small c u
  · left
    rw [hn, mul_div_cancel_right₀ _ hpos.ne']
    exact half_le_of_ne_nearest hm (by rintro rfl; exact hne hn)
  · right
    have hx52 : 2 ^ 52 ≤ x := hx.resolve_left hu.ne'
    have hy : f64 c / 2 ^ u < 2 ^ 52 := (div_lt_iff₀ hpos).mpr (lt_of_abs_lt hsmall)
    have hm52 : |m - x| ≤ |((2 ^ 52 : Int) : ℚ) - x| := by
      by_cases h : 2 ^ 52 = m
      · rw [h]
      · exact hm.trans (half_le_of_ne_nearest hm h)
    calc |m - x| ≤ |((2 ^ 52 : Int) : ℚ) - x| := hm52
      _ = x - 2 ^ 52 := by
        rw [Int.cast_pow, Int.cast_ofNat, abs_sub_comm, abs_of_nonneg (sub_nonneg.mpr hx52)]
      _ < x - f64 c / 2 ^ u := sub_lt_sub_left hy x
      _ ≤ |f64 c / 2 ^ u - x| := by rw [abs_sub_comm]; exact le_abs_self _

/-- `m · 2^u` is `RN` of `x · 2^u` when `m` is within 1/2 of `x`, `2^u` is the last place there, and a tie goes to a
pattern with an even fraction (00_scope.md R8). -/
theorem nearestEven_of_scaled {b : Bits64} {m u : Int} {x : ℚ} (hfin : isFinite b = true) (hb : f64 b = m * 2 ^ u)
    (hx : u = -1074 ∨ 2 ^ 52 ≤ x) (hm : |m - x| ≤ 1 / 2) (htie : |m - x| = 1 / 2 → b.getLsbD 0 = false) :
    NearestEven (x * 2 ^ u) b := by
  have hpos : (0 : ℚ) < 2 ^ u := by positivity
  have hdist_b : |f64 b - x * 2 ^ u| = |m - x| * 2 ^ u := by
    rw [hb, ← sub_mul, abs_mul, abs_of_pos hpos]
  have hdist (c : Bits64) : |f64 c - x * 2 ^ u| = |f64 c / 2 ^ u - x| * 2 ^ u := by
    rw [← abs_of_pos hpos, ← abs_mul, abs_of_pos hpos, sub_mul, div_mul_cancel₀ _ hpos.ne']
  refine ⟨hfin, fun c _ => ?_, fun c _ hne heq => ?_⟩
  · by_cases hne : f64 c = f64 b
    · rw [hne]
    · rw [hdist_b, hdist]
      refine mul_le_mul_of_nonneg_right ?_ hpos.le
      exact (half_le_or_lt_of_ne hm hx (hb ▸ hne)).elim hm.trans le_of_lt
  · rw [hdist_b, hdist] at heq
    have heq := mul_right_cancel₀ hpos.ne' heq
    obtain h | h := half_le_or_lt_of_ne hm hx (hb ▸ hne)
    · exact htie (le_antisymm hm (heq ▸ h))
    · exact absurd heq h.ne'

/-- A natural number is nearer than 1/2 to a ratio, said without division. -/
theorem abs_sub_div_lt_half {m n d : Nat} (hbelow : 2 * n < (2 * m + 1) * d) (habove : 2 * m * d < 2 * n + d) :
    |(m : ℚ) - n / d| < 1 / 2 := by
  have hd : (0 : ℚ) < d := by exact_mod_cast Nat.pos_of_mul_pos_left (Nat.zero_lt_of_lt hbelow)
  have hbelow' : (2 : ℚ) * n < (2 * m + 1) * d := by exact_mod_cast hbelow
  have habove' : (2 : ℚ) * m * d < 2 * n + d := by exact_mod_cast habove
  have hup : (n : ℚ) / d < 1 / 2 + m := (div_lt_iff₀ hd).mpr (by linarith)
  have hdown : (m : ℚ) - 1 / 2 < n / d := (lt_div_iff₀ hd).mpr (by linarith)
  exact abs_sub_lt_iff.mpr ⟨sub_lt_comm.mp hdown, sub_lt_iff_lt_add.mpr hup⟩

/-- A test in natural numbers that a nonnegative normal pattern is nearer than half a last place to `num/den`: with the
ratio scaled to `N/D` by the last place of the pattern, `2^52 ≤ N/D` and the significand is nearer than 1/2 to `N/D`. -/
abbrev IsStrictlyNearest (num den : Nat) (b : Bits64) : Prop :=
  isFinite b = true ∧ signBit b = false ∧
  2 ^ 52 * scaleUp den (unitExponent b) ≤ scaleUp num (-unitExponent b) ∧
  2 * scaleUp num (-unitExponent b) < (2 * significand b + 1) * scaleUp den (unitExponent b) ∧
  2 * significand b * scaleUp den (unitExponent b) <
    2 * scaleUp num (-unitExponent b) + scaleUp den (unitExponent b)

theorem nearestEven_of_isStrictlyNearest {num den : Nat} {b : Bits64} (hden : 0 < den)
    (h : IsStrictlyNearest num den b) : NearestEven ((num : ℚ) / den) b := by
  obtain ⟨hfin, hsign, hlow, hbelow, habove⟩ := h
  have hnear := abs_sub_div_lt_half hbelow habove
  rw [← Int.cast_natCast (significand b)] at hnear
  rw [div_eq_scaleUp_div_scaleUp_mul num den (unitExponent b)]
  refine nearestEven_of_scaled hfin ?_ (.inr ?_) hnear.le (fun htie => absurd htie hnear.ne)
  · rw [Int.cast_natCast, f64_eq_significand_of_nonneg hsign]
  · rw [le_div_iff₀ (by exact_mod_cast scaleUp_pos _ hden)]
    exact_mod_cast hlow

/-! ### The multiplier ROM (10_state.md R13) -/

/-- `RN` of a power of ten is tested on the power as a ratio of two natural numbers. -/
theorem nearestEven_ten_zpow {e : Int} {b : Bits64} (h : IsStrictlyNearest (10 ^ e.toNat) (10 ^ (-e).toNat) b) :
    NearestEven ((10 : ℚ) ^ e) b := by
  rw [zpow_eq_pow_div_pow (by norm_num)]
  exact_mod_cast nearestEven_of_isStrictlyNearest (Nat.pow_pos (by decide)) h

/-- The test holds strictly of every entry: no listed power of ten is halfway between two binary64 values. -/
theorem multContents_isStrictlyNearest : ∀ k : Fin 32, k.val < 31 →
    IsStrictlyNearest (10 ^ ((k.val : Int) - 17).toNat) (10 ^ (-((k.val : Int) - 17)).toNat) multContents[k] := by
  decide

/-! ### The table index of a word (41_decode.md R73, R74) -/

theorem exponentIndex_le (p : Packed) : exponentIndex p ≤ 15 := by
  rw [exponentIndex, BitVec.toNat_and]
  exact Nat.and_le_right

/-- The biased index lies in 0..30. -/
theorem biasedIndex_mem (p : Packed) : 0 ≤ biasedIndex p ∧ biasedIndex p ≤ 30 := by
  have h := exponentIndex_le p
  unfold biasedIndex signedIndex Config.bias
  split <;> omega

/-- The mask changes nothing. -/
theorem tableIndex_val (p : Packed) : ((tableIndex p).val : Int) = biasedIndex p := by
  obtain ⟨h0, h30⟩ := biasedIndex_mem p
  simp only [tableIndex]
  omega

theorem tableIndex_le (p : Packed) : (tableIndex p).val ≤ 30 := by
  have h := tableIndex_val p
  obtain ⟨-, h30⟩ := biasedIndex_mem p
  omega

/-- Settles O8: each entry passes the test for `RN` in natural numbers, and a table index is at most 30. -/
theorem multiplierRomHoldsNearestPowers : Obligations.MultiplierRomHoldsNearestPowers :=
  ⟨fun k hk => nearestEven_ten_zpow (multContents_isStrictlyNearest k hk), rfl,
    fun p => by have := tableIndex_le p; omega⟩

end Sys2Proof.Machine

/-! Proofs of the family 30_encoding.md: the fields of a packed word, every word decodes to a finite value, and the
words with magnitude 0. The middle part says what one rounding does to a magnitude (00_scope.md R8). -/

namespace Sys2Proof.Machine

/-! ### The fields of a packed word (30_encoding.md R35, R36) -/

/-- Bit by bit, an assembled word is its exponent code, its value sign and its magnitude. -/
theorem getLsbD_pack (m : BitVec 10) (s : Bool) (c : BitVec 5) {i : Nat} (hi : i < 16) :
    (pack m s c).getLsbD i = if i < 5 then c.getLsbD i else if i = 5 then s else m.getLsbD (i - 6) := by
  rw [BitVec.getLsbD_eq_getElem hi]
  simp only [pack, BitVec.getElem_or, BitVec.getElem_shiftLeft, BitVec.getElem_setWidth, BitVec.getLsbD_ofBool]
  by_cases hcode : i < 5
  · simp [hcode, show i < 6 by omega]
  have hc : c.getLsbD i = false := BitVec.getLsbD_of_ge _ _ (by omega)
  by_cases hsign : i = 5
  · simp [hsign]
  · simp [hc, hcode, hsign, show ¬ i < 6 by omega, show i - 5 ≠ 0 by omega]

theorem magnitude_eq_extract (p : Packed) : magnitude p = (p.extractLsb' 6 10).toNat := by
  have h : p.toNat < 2 ^ 16 := p.isLt
  simp only [magnitude, BitVec.toNat_ushiftRight, BitVec.extractLsb'_toNat, Nat.shiftRight_eq_div_pow]
  omega

theorem exponentIndex_eq_extract (p : Packed) : exponentIndex p = (p.extractLsb' 0 4).toNat := by
  rw [exponentIndex, BitVec.toNat_and, BitVec.extractLsb'_toNat]
  exact Nat.and_two_pow_sub_one_eq_mod _ 4

theorem magnitude_pack (m : BitVec 10) (s : Bool) (c : BitVec 5) : magnitude (pack m s c) = m.toNat := by
  have h : (pack m s c).extractLsb' 6 10 = m := by
    ext i hi
    rw [BitVec.getElem_extractLsb', getLsbD_pack m s c (by omega), if_neg (by omega), if_neg (by omega),
      Nat.add_sub_cancel_left, BitVec.getLsbD_eq_getElem]
  rw [magnitude_eq_extract, h]

theorem valueSign_pack (m : BitVec 10) (s : Bool) (c : BitVec 5) : valueSign (pack m s c) = s :=
  getLsbD_pack m s c (by decide)

theorem exponentCode_pack (m : BitVec 10) (s : Bool) (c : BitVec 5) : exponentCode (pack m s c) = c := by
  ext i hi
  rw [exponentCode, BitVec.getElem_extractLsb', getLsbD_pack m s c (by omega), if_pos (by omega), Nat.zero_add,
    BitVec.getLsbD_eq_getElem]

theorem pack_fields (p : Packed) :
    pack (BitVec.ofNat 10 (magnitude p)) (valueSign p) (exponentCode p) = p := by
  rw [magnitude_eq_extract, BitVec.ofNat_toNat, BitVec.setWidth_eq]
  refine BitVec.eq_of_getLsbD_eq fun i hi => ?_
  rw [getLsbD_pack _ _ _ hi]
  split
  · next hcode => simp [exponentCode, hcode]
  split
  · next hsign => rw [hsign, valueSign]
  · simp [show i - 6 < 10 by omega, show 6 + (i - 6) = i by omega]

/-- Settles O14: each bit of an assembled word is a bit of one field, so each slice gives its field back. -/
theorem packAndUnpackAgree : Obligations.PackAndUnpackAgree :=
  ⟨fun m s c => ⟨magnitude_pack m s c, valueSign_pack m s c, exponentCode_pack m s c⟩,
    fun p => ⟨(pack_fields p).symm, magnitude_eq_extract p, rfl, rfl, rfl, exponentIndex_eq_extract p⟩⟩

/-! ### A pattern as a sign and 63 magnitude bits (00_scope.md R8) -/

theorem toNat_withSign (s : Bool) (m : BitVec 63) : (withSign s m).toNat = s.toNat * 2 ^ 63 + m.toNat := by
  have h := BitVec.toNat_append (BitVec.ofBool s) m
  rwa [Nat.shiftLeft_eq, mul_comm, ← Nat.two_pow_add_eq_or_of_lt m.isLt, mul_comm, BitVec.toNat_ofBool] at h

theorem toNat_withSign_mod (s : Bool) (m : BitVec 63) : (withSign s m).toNat % 2 ^ 63 = m.toNat := by
  rw [toNat_withSign, mul_comm, Nat.mul_add_mod, Nat.mod_eq_of_lt m.isLt]

theorem signBit_eq_decide (b : Bits64) : signBit b = decide (2 ^ 63 ≤ b.toNat) :=
  BitVec.msb_eq_decide b

theorem signBit_eq_false_iff {b : Bits64} : signBit b = false ↔ b.toNat < 2 ^ 63 := by
  rw [signBit_eq_decide, decide_eq_false_iff_not, not_le]

theorem signBit_withSign (s : Bool) (m : BitVec 63) : signBit (withSign s m) = s := by
  have hm := m.isLt
  rw [signBit_eq_decide, toNat_withSign]
  cases s <;> simp [hm]

theorem expField_eq (b : Bits64) : expField b = b.toNat % 2 ^ 63 / 2 ^ 52 := by
  rw [expField, BitVec.extractLsb'_toNat, Nat.shiftRight_eq_div_pow]
  omega

theorem fracField_eq (b : Bits64) : fracField b = b.toNat % 2 ^ 63 % 2 ^ 52 := by
  rw [fracField, BitVec.extractLsb'_toNat, Nat.shiftRight_zero]
  omega

theorem isFinite_iff {b : Bits64} : isFinite b = true ↔ b.toNat % 2 ^ 63 < 0x7FF0000000000000 := by
  rw [isFinite, bne_iff_ne, expField_eq]
  omega

theorem isFinite_withSign {m : BitVec 63} (s : Bool) (h : m.toNat < 0x7FF0000000000000) :
    isFinite (withSign s m) = true := by
  rwa [isFinite_iff, toNat_withSign_mod]

theorem negate_withSign (s : Bool) (m : BitVec 63) : negate (withSign s m) = withSign (!s) m := by
  have h : negate (withSign s m) = (BitVec.ofBool s ^^^ BitVec.ofBool true) ++ (m ^^^ 0#63) :=
    BitVec.xor_append (x₁ := BitVec.ofBool s) (x₂ := BitVec.ofBool true) (y₁ := m) (y₂ := 0#63)
  rw [h, BitVec.xor_zero, BitVec.ofBool_xor_ofBool, Bool.xor_true, withSign]

theorem signBit_absBits (x : Bits64) : signBit (absBits x) = false := by
  rw [signBit_eq_false_iff, absBits, BitVec.toNat_setWidth, BitVec.extractLsb'_toNat]
  omega

/-! ### The order of the magnitudes is the order of the magnitude bits -/

/-- A finite magnitude in units of the smallest subnormal, `2^-1074`. -/
def magUnits (b : Bits64) : Nat := significand b * 2 ^ (expField b - 1)

theorem abs_f64 (b : Bits64) : |f64 b| = significand b * 2 ^ unitExponent b := by
  obtain ⟨n, hn, hb⟩ := f64_eq_int_mul b
  rw [hb, abs_mul, abs_of_pos (a := (2 : ℚ) ^ _) (by positivity), ← Int.cast_abs, Int.abs_eq_natAbs, hn,
    Int.cast_natCast]

theorem abs_f64_eq_div (b : Bits64) : |f64 b| = (magNum b : ℚ) / magDen b := by
  rw [abs_f64, magNum_div_magDen]

theorem abs_f64_eq_magUnits_mul (b : Bits64) : |f64 b| = magUnits b * 2 ^ (-1074 : Int) := by
  have h : unitExponent b = (expField b - 1 : Nat) + -1074 := by
    unfold unitExponent
    omega
  rw [abs_f64, h, zpow_add₀ two_ne_zero, zpow_natCast, magUnits, Nat.cast_mul, Nat.cast_pow,
    Nat.cast_ofNat, mul_assoc]

/-- The magnitude bits of a pattern are its significand in the fraction's place, and its power of two above. -/
theorem magBits_eq (b : Bits64) : b.toNat % 2 ^ 63 = (expField b - 1) * 2 ^ 52 + significand b := by
  have he := expField_eq b
  have hf := fracField_eq b
  unfold significand
  split <;> omega

theorem significand_normal (b : Bits64) : expField b - 1 = 0 ∨ 2 ^ 52 ≤ significand b := by
  unfold significand
  split <;> omega

/-- Magnitude bits `w · 2^52 + q` with a significand `q` that is normal, or subnormal with the least power of two,
order the magnitudes `q · 2^w`. A significand may be `2^53`, the carry of a rounding. -/
theorem mul_two_pow_le_of_bits_le {q w q' w' : Nat} (hnorm : w = 0 ∨ 2 ^ 52 ≤ q) (hq : q ≤ 2 ^ 53)
    (hnorm' : w' = 0 ∨ 2 ^ 52 ≤ q') (hq' : q' ≤ 2 ^ 53) (h : w * 2 ^ 52 + q ≤ w' * 2 ^ 52 + q') :
    q * 2 ^ w ≤ q' * 2 ^ w' := by
  obtain hlt | rfl | hgt := lt_trichotomy w w'
  · calc q * 2 ^ w ≤ 2 ^ 53 * 2 ^ w := Nat.mul_le_mul_right _ hq
      _ = 2 ^ 52 * 2 ^ (w + 1) := by ring
      _ ≤ q' * 2 ^ w' := Nat.mul_le_mul (by omega) (Nat.pow_le_pow_right (by decide) hlt)
  · exact Nat.mul_le_mul_right _ (by omega)
  · obtain ⟨rfl, rfl, rfl⟩ : w = w' + 1 ∧ q = 2 ^ 52 ∧ q' = 2 ^ 53 := by omega
    exact le_of_eq (by ring)

theorem magUnits_eq_of_bits {b : Bits64} {q w : Nat} (hnorm : w = 0 ∨ 2 ^ 52 ≤ q) (hq : q ≤ 2 ^ 53)
    (h : b.toNat % 2 ^ 63 = w * 2 ^ 52 + q) : magUnits b = q * 2 ^ w := by
  have hbits := (magBits_eq b).symm.trans h
  have hsig := (significand_lt b).le
  exact le_antisymm (mul_two_pow_le_of_bits_le (significand_normal b) hsig hnorm hq hbits.le)
    (mul_two_pow_le_of_bits_le hnorm hq (significand_normal b) hsig hbits.ge)

/-- No pattern at or below a nonnegative one, in unsigned order, has a larger magnitude. -/
theorem abs_f64_le_of_le {a b : Bits64} (hb : signBit b = false) (h : a ≤ b) : |f64 a| ≤ |f64 b| := by
  have hb := signBit_eq_false_iff.mp hb
  have hle : a.toNat % 2 ^ 63 ≤ b.toNat % 2 ^ 63 := by
    have h := BitVec.le_def.mp h
    omega
  rw [magBits_eq, magBits_eq] at hle
  have hunits : magUnits a ≤ magUnits b := mul_two_pow_le_of_bits_le (significand_normal a) (significand_lt a).le
    (significand_normal b) (significand_lt b).le hle
  rw [abs_f64_eq_magUnits_mul, abs_f64_eq_magUnits_mul]
  exact mul_le_mul_of_nonneg_right (by exact_mod_cast hunits) (by positivity)

/-! ### One rounding: the last place, and the nearest integer -/

/-- A power of two is at most a ratio, said without division. -/
theorem two_zpow_le_div_iff {num den : Nat} (hden : 0 < den) (l : Int) :
    (2 : ℚ) ^ l ≤ num / den ↔ scaleUp den l ≤ scaleUp num (-l) := by
  have hpos : (0 : ℚ) < scaleUp den l := by exact_mod_cast scaleUp_pos l hden
  rw [div_eq_scaleUp_div_scaleUp_mul num den l, le_mul_iff_one_le_left (by positivity), one_le_div hpos, Nat.cast_le]

theorem two_pow_log2_le {n : Nat} (h : 0 < n) : (2 : ℚ) ^ (n.log2 : Int) ≤ n := by
  rw [zpow_natCast]
  exact_mod_cast Nat.log2_self_le h.ne'

theorem lt_two_pow_log2_succ (n : Nat) : (n : ℚ) < 2 ^ ((n.log2 : Int) + 1) := by
  exact_mod_cast Nat.lt_log2_self

theorem floorLog2_spec {num den : Nat} (hnum : 0 < num) (hden : 0 < den) :
    (2 : ℚ) ^ floorLog2 num den ≤ num / den ∧ (num : ℚ) / den < 2 ^ (floorLog2 num den + 1) := by
  have hd : (0 : ℚ) < den := by exact_mod_cast hden
  have hnum_le := two_pow_log2_le hnum
  have hden_le := two_pow_log2_le hden
  have hnum_lt := lt_two_pow_log2_succ num
  have hden_lt := lt_two_pow_log2_succ den
  simp only [floorLog2]
  split
  · next h =>
    refine ⟨(two_zpow_le_div_iff hden _).mpr h, (div_lt_iff₀ hd).mpr (hnum_lt.trans_le ?_)⟩
    rw [show ((num.log2 : Int) + 1) = (num.log2 - den.log2 + 1) + den.log2 by ring, zpow_add₀ two_ne_zero]
    exact mul_le_mul_of_nonneg_left hden_le (by positivity)
  · next h =>
    rw [sub_add_cancel]
    refine ⟨(le_div_iff₀ hd).mpr (le_trans ?_ hnum_le), lt_of_not_ge (mt (two_zpow_le_div_iff hden _).mp h)⟩
    have hsplit : (num.log2 : Int) = (num.log2 - den.log2 - 1) + (den.log2 + 1) := by ring
    calc (2 : ℚ) ^ ((num.log2 : Int) - den.log2 - 1) * den
        ≤ 2 ^ ((num.log2 : Int) - den.log2 - 1) * 2 ^ ((den.log2 : Int) + 1) :=
          mul_le_mul_of_nonneg_left hden_lt.le (by positivity)
      _ = 2 ^ (num.log2 : Int) := by rw [← zpow_add₀ two_ne_zero, ← hsplit]

theorem div_le_nearestEvenInt (n d : Nat) : n / d ≤ nearestEvenInt n d := by
  simp only [nearestEvenInt]
  split <;> omega

theorem nearestEvenInt_le (n d : Nat) : nearestEvenInt n d ≤ n / d + 1 := by
  simp only [nearestEvenInt]
  split <;> omega

/-- The chosen integer is within 1/2 of the ratio, said without division. -/
theorem two_mul_nearestEvenInt_mem {n d : Nat} (hd : 0 < d) :
    2 * n ≤ (2 * nearestEvenInt n d + 1) * d ∧ 2 * nearestEvenInt n d * d ≤ 2 * n + d := by
  have hn : d * (n / d) + n % d = n := Nat.div_add_mod n d
  have hr : n % d < d := Nat.mod_lt n hd
  have hr0 : 0 ≤ n % d := Nat.zero_le _
  simp only [nearestEvenInt]
  split
  · next hup =>
    have hup : d ≤ 2 * (n % d) := by omega
    constructor <;> linarith
  · next hdown =>
    have hdown : 2 * (n % d) ≤ d := by omega
    constructor <;> linarith

theorem abs_nearestEvenInt_sub_le {n d : Nat} (hd : 0 < d) : |(nearestEvenInt n d : ℚ) - n / d| ≤ 1 / 2 := by
  obtain ⟨hbelow, habove⟩ := two_mul_nearestEvenInt_mem (n := n) hd
  have hdq : (0 : ℚ) < d := by exact_mod_cast hd
  have hbelow' : (2 : ℚ) * n ≤ (2 * nearestEvenInt n d + 1) * d := by exact_mod_cast hbelow
  have habove' : (2 : ℚ) * nearestEvenInt n d * d ≤ 2 * n + d := by exact_mod_cast habove
  have hup : (n : ℚ) / d ≤ 1 / 2 + nearestEvenInt n d := (div_le_iff₀ hdq).mpr (by linarith)
  have hdown : (nearestEvenInt n d : ℚ) - 1 / 2 ≤ n / d := (le_div_iff₀ hdq).mpr (by linarith)
  exact abs_sub_le_iff.mpr ⟨sub_le_comm.mp hdown, sub_le_iff_le_add.mpr hup⟩

/-! ### `RN` of a ratio: the magnitude it stands for, and how near it is (00_scope.md R8) -/

/-- The significand of `RN(num/den)`, before a carry: the ratio in units of its last place, rounded. -/
def roundedSignificand (num den : Nat) : Nat :=
  nearestEvenInt (scaleUp num (-lastPlace num den)) (scaleUp den (lastPlace num den))

theorem rnBits_eq {num : Nat} (hnum : 0 < num) (den : Nat) :
    rnBits num den = (lastPlace num den + 1074).toNat * 2 ^ 52 + roundedSignificand num den := by
  simp only [rnBits, if_neg hnum.ne', roundedSignificand]

theorem neg_1074_le_lastPlace (num den : Nat) : -1074 ≤ lastPlace num den := le_max_right _ _

section
variable {num den : Nat} (hnum : 0 < num) (hden : 0 < den)
include hnum hden

/-- In units of its last place a ratio is below `2^53`. -/
theorem roundedSignificand_le : roundedSignificand num den ≤ 2 ^ 53 := by
  have hpos : 0 < scaleUp den (lastPlace num den) := scaleUp_pos _ hden
  have hlt : (num : ℚ) / den < 2 ^ (53 + lastPlace num den) := by
    refine (floorLog2_spec hnum hden).2.trans_le (zpow_le_zpow_right₀ one_le_two ?_)
    unfold lastPlace
    omega
  rw [zpow_add₀ two_ne_zero, div_eq_scaleUp_div_scaleUp_mul num den (lastPlace num den),
    mul_lt_mul_iff_left₀ (by positivity), div_lt_iff₀ (by exact_mod_cast hpos)] at hlt
  have hquot := (Nat.div_lt_iff_lt_mul hpos).mpr (show _ < 2 ^ 53 * _ by exact_mod_cast hlt)
  exact (nearestEvenInt_le _ _).trans hquot

/-- In units of its last place a ratio is at least `2^52`, but among the subnormals. -/
theorem le_roundedSignificand : lastPlace num den = -1074 ∨ 2 ^ 52 ≤ roundedSignificand num den := by
  by_cases hsub : floorLog2 num den - 52 ≤ -1074
  · exact .inl (max_eq_right hsub)
  right
  have hpos : 0 < scaleUp den (lastPlace num den) := scaleUp_pos _ hden
  have hle : (2 : ℚ) ^ (52 + lastPlace num den) ≤ num / den := by
    refine (zpow_le_zpow_right₀ one_le_two ?_).trans (floorLog2_spec hnum hden).1
    unfold lastPlace
    omega
  rw [zpow_add₀ two_ne_zero, div_eq_scaleUp_div_scaleUp_mul num den (lastPlace num den),
    mul_le_mul_iff_left₀ (by positivity), le_div_iff₀ (by exact_mod_cast hpos)] at hle
  have hquot := (Nat.le_div_iff_mul_le hpos).mpr (show 2 ^ 52 * _ ≤ _ by exact_mod_cast hle)
  exact hquot.trans (div_le_nearestEvenInt _ _)

/-- The pattern of a rounded ratio stands for the rounded significand in units of the last place, carry or not. -/
theorem abs_f64_rn (s : Bool) (hfin : rnBits num den < 0x7FF0000000000000) :
    |f64 (withSign s (rn num den))| = roundedSignificand num den * 2 ^ lastPlace num den := by
  have hplace := neg_1074_le_lastPlace num den
  have hbits : (withSign s (rn num den)).toNat % 2 ^ 63 =
      (lastPlace num den + 1074).toNat * 2 ^ 52 + roundedSignificand num den := by
    rw [toNat_withSign_mod, rn_of_lt hfin, BitVec.toNat_ofNat, Nat.mod_eq_of_lt (by omega), rnBits_eq hnum]
  have hnorm := le_roundedSignificand hnum hden
  rw [abs_f64_eq_magUnits_mul, magUnits_eq_of_bits (by omega) (roundedSignificand_le hnum hden) hbits, Nat.cast_mul,
    Nat.cast_pow, Nat.cast_ofNat, mul_assoc, ← zpow_natCast, ← zpow_add₀ two_ne_zero]
  congr 2
  omega

/-- A ratio below `2^1023` rounds to a finite pattern. -/
theorem rnBits_lt_of_lt (h : (num : ℚ) / den < 2 ^ (1023 : Int)) : rnBits num den < 0x7FF0000000000000 := by
  have hlog : floorLog2 num den < 1023 :=
    (zpow_lt_zpow_iff_right₀ one_lt_two).mp ((floorLog2_spec hnum hden).1.trans_lt h)
  have hsig := roundedSignificand_le hnum hden
  rw [rnBits_eq hnum]
  unfold lastPlace
  omega

/-- The last place is `2^-52` of the ratio at most, or that of the subnormals. -/
theorem two_zpow_lastPlace_le : (2 : ℚ) ^ lastPlace num den ≤ max ((num : ℚ) / den) (2 ^ (-1022 : Int)) / 2 ^ 52 := by
  rw [le_div_iff₀ (by positivity), ← zpow_natCast, ← zpow_add₀ two_ne_zero]
  by_cases hsub : floorLog2 num den - 52 ≤ -1074
  · rw [lastPlace, max_eq_right hsub]
    exact le_max_right _ _
  · rw [lastPlace, max_eq_left (le_of_not_ge hsub)]
    refine le_trans ?_ (le_max_left _ _)
    simpa using (floorLog2_spec hnum hden).1

end

/-- `RN` of a ratio below `2^1023` is finite. -/
theorem isFinite_rn (s : Bool) {num den : Nat} (hden : 0 < den) (h : (num : ℚ) / den < 2 ^ (1023 : Int)) :
    isFinite (withSign s (rn num den)) = true := by
  refine isFinite_withSign s ?_
  obtain rfl | hnum := Nat.eq_zero_or_pos num
  · rw [rn_zero]
    decide
  · have hlt := rnBits_lt_of_lt hnum hden h
    rwa [rn_of_lt hlt, BitVec.toNat_ofNat, Nat.mod_eq_of_lt (by omega)]

theorem f64_withSign_zero (s : Bool) : f64 (withSign s 0#63) = 0 := by
  rw [← abs_eq_zero, abs_f64_eq_magUnits_mul,
    magUnits_eq_of_bits (q := 0) (w := 0) (.inl rfl) (Nat.zero_le _) (toNat_withSign_mod s 0#63), Nat.zero_mul,
    Nat.cast_zero, zero_mul]

/-- A rounded ratio is within half a last place of the ratio. -/
theorem abs_f64_rn_sub_le (s : Bool) {num den : Nat} (hden : 0 < den) (h : (num : ℚ) / den < 2 ^ (1023 : Int)) :
    |(|f64 (withSign s (rn num den))| - (num : ℚ) / den)| ≤ max ((num : ℚ) / den) (2 ^ (-1022 : Int)) / 2 ^ 53 := by
  obtain rfl | hnum := Nat.eq_zero_or_pos num
  · rw [rn_zero, f64_withSign_zero, Nat.cast_zero, zero_div, abs_zero, sub_zero, abs_zero]
    exact div_nonneg (le_max_left _ _) (by positivity)
  have hpos : 0 < scaleUp den (lastPlace num den) := scaleUp_pos _ hden
  rw [abs_f64_rn hnum hden s (rnBits_lt_of_lt hnum hden h), div_eq_scaleUp_div_scaleUp_mul num den (lastPlace num den),
    ← sub_mul, abs_mul, abs_of_pos (a := (2 : ℚ) ^ _) (by positivity), ← div_eq_scaleUp_div_scaleUp_mul]
  calc |(roundedSignificand num den : ℚ) - _| * 2 ^ lastPlace num den
      ≤ 1 / 2 * (max ((num : ℚ) / den) (2 ^ (-1022 : Int)) / 2 ^ 52) :=
        mul_le_mul (abs_nearestEvenInt_sub_le hpos) (two_zpow_lastPlace_le hnum hden) (by positivity) (by norm_num)
    _ = max ((num : ℚ) / den) (2 ^ (-1022 : Int)) / 2 ^ 53 := by ring

theorem two_pow_200_lt : (2 : ℚ) ^ 200 < 2 ^ (1023 : Int) := by
  rw [← zpow_natCast]
  exact zpow_lt_zpow_right₀ one_lt_two (by decide)

/-- A ratio of at most `k` rounds to a value within `k · 2^-53` of it. -/
theorem abs_f64_rn_sub_le_of_le (s : Bool) {num den : Nat} (hden : 0 < den) {k : ℚ} (hk1 : 1 ≤ k) (hk : k ≤ 2 ^ 200)
    (h : (num : ℚ) / den ≤ k) : |(|f64 (withSign s (rn num den))| - (num : ℚ) / den)| ≤ k / 2 ^ 53 := by
  have hsub : (2 : ℚ) ^ (-1022 : Int) ≤ 1 := zpow_le_one_of_nonpos₀ one_le_two (by decide)
  exact (abs_f64_rn_sub_le s hden ((h.trans hk).trans_lt two_pow_200_lt)).trans
    (div_le_div_of_nonneg_right (max_le h (hsub.trans hk1)) (by positivity))

/-! ### `fmul` (00_scope.md R8) -/

theorem magNum_mul_div_magDen_mul (a b : Bits64) :
    ((magNum a * magNum b : Nat) : ℚ) / (magDen a * magDen b : Nat) = |f64 a| * |f64 b| := by
  rw [abs_f64_eq_div, abs_f64_eq_div, div_mul_div_comm, Nat.cast_mul, Nat.cast_mul]

/-- A lower bound on an exact product, said without division. -/
theorem natCast_le_abs_f64_mul {k : Nat} {a b : Bits64} (h : k * (magDen a * magDen b) ≤ magNum a * magNum b) :
    (k : ℚ) ≤ |f64 a| * |f64 b| := by
  rw [← magNum_mul_div_magDen_mul, le_div_iff₀ (by exact_mod_cast Nat.mul_pos (magDen_pos a) (magDen_pos b))]
  exact_mod_cast h

/-- An upper bound on an exact product, said without division. -/
theorem abs_f64_mul_le_natCast {k : Nat} {a b : Bits64} (h : magNum a * magNum b ≤ k * (magDen a * magDen b)) :
    |f64 a| * |f64 b| ≤ k := by
  rw [← magNum_mul_div_magDen_mul, div_le_iff₀ (by exact_mod_cast Nat.mul_pos (magDen_pos a) (magDen_pos b))]
  exact_mod_cast h

section
variable {a b : Bits64} (ha : isFinite a = true) (hb : isFinite b = true)
include ha hb

theorem signBit_fmul : signBit (fmul a b) = (signBit a ^^ signBit b) := by
  rw [fmul_of_finite ha hb, signBit_withSign]

theorem isFinite_fmul (h : |f64 a| * |f64 b| < 2 ^ (1023 : Int)) : isFinite (fmul a b) = true := by
  rw [fmul_of_finite ha hb]
  refine isFinite_rn _ (Nat.mul_pos (magDen_pos a) (magDen_pos b)) ?_
  rwa [magNum_mul_div_magDen_mul]

/-- A product of at most `k` is within `k · 2^-53` of the exact product. -/
theorem abs_f64_fmul_sub_le {k : ℚ} (hk1 : 1 ≤ k) (hk : k ≤ 2 ^ 200) (h : |f64 a| * |f64 b| ≤ k) :
    |(|f64 (fmul a b)| - |f64 a| * |f64 b|)| ≤ k / 2 ^ 53 := by
  rw [fmul_of_finite ha hb, ← magNum_mul_div_magDen_mul]
  rw [← magNum_mul_div_magDen_mul] at h
  exact abs_f64_rn_sub_le_of_le _ (Nat.mul_pos (magDen_pos a) (magDen_pos b)) hk1 hk h

end

/-! ### DECODE (41_decode.md R70) -/

theorem magnitude_lt (p : Packed) : magnitude p < 2 ^ 10 := by
  rw [magnitude_eq_extract]
  exact BitVec.isLt _

/-- The signed magnitude is the rounded magnitude under the value sign (41_decode.md R75, R76). -/
theorem signedMagnitude_eq (p : Packed) : signedMagnitude p = withSign (valueSign p) (rn (magnitude p) 1) := by
  rw [signedMagnitude, bits64OfNat]
  cases valueSign p
  · rfl
  · exact negate_withSign false _

theorem signBit_signedMagnitude (p : Packed) : signBit (signedMagnitude p) = valueSign p := by
  rw [signedMagnitude_eq, signBit_withSign]

theorem magnitude_div_one_le (p : Packed) : (magnitude p : ℚ) / (1 : Nat) ≤ 2 ^ 10 := by
  rw [Nat.cast_one, div_one]
  exact_mod_cast (magnitude_lt p).le

theorem isFinite_signedMagnitude (p : Packed) : isFinite (signedMagnitude p) = true := by
  rw [signedMagnitude_eq]
  exact isFinite_rn _ one_pos (((magnitude_div_one_le p).trans (by norm_num)).trans_lt two_pow_200_lt)

theorem abs_f64_signedMagnitude_le (p : Packed) : |f64 (signedMagnitude p)| ≤ 2 ^ 11 := by
  rw [signedMagnitude_eq]
  have hm := magnitude_div_one_le p
  have herr := abs_f64_rn_sub_le_of_le (valueSign p) one_pos (by norm_num) (by norm_num) hm
  have hup := (abs_sub_le_iff.mp herr).1
  linarith

/-- Every entry of the loaded multiplier ROM below the empty slot is finite, nonnegative and at most `10^13`
(10_state.md R13). -/
theorem multContents_bounds : ∀ k : Fin 32, k.val < 31 → isFinite multContents[k] = true ∧
    signBit multContents[k] = false ∧ magNum multContents[k] ≤ 10 ^ 13 * magDen multContents[k] := by
  decide

/-- What DECODE multiplies by is such an entry. -/
theorem multiplier_bounds (p : Packed) : isFinite multContents[tableIndex p] = true ∧
    signBit multContents[tableIndex p] = false ∧ |f64 multContents[tableIndex p]| ≤ 10 ^ 13 := by
  obtain ⟨hfin, hsign, hle⟩ := multContents_bounds (tableIndex p) (Nat.lt_succ_of_le (tableIndex_le p))
  have hden : (0 : ℚ) < magDen multContents[tableIndex p] := by exact_mod_cast magDen_pos _
  refine ⟨hfin, hsign, ?_⟩
  rw [abs_f64_eq_div, div_le_iff₀ hden]
  exact_mod_cast hle

theorem isFinite_decodeResult (p : Packed) : isFinite (decodeResult multContents p) = true := by
  obtain ⟨hfin, -, hle⟩ := multiplier_bounds p
  refine isFinite_fmul (isFinite_signedMagnitude p) hfin ?_
  calc |f64 (signedMagnitude p)| * |f64 multContents[tableIndex p]|
      ≤ 2 ^ 11 * 10 ^ 13 := mul_le_mul (abs_f64_signedMagnitude_le p) hle (abs_nonneg _) (by norm_num)
    _ ≤ 2 ^ 200 := by norm_num
    _ < 2 ^ (1023 : Int) := two_pow_200_lt

theorem exec_decode_of_loaded {s : State} (hs : s.RomsLoaded) (p : Packed) :
    exec (.decode p) s = .next { s with completed := s.completed ++ [.decoded p (decodeResult multContents p)] } := by
  rw [← hs.mult_eq]
  exact exec_eq_complete (.decode p) s

theorem exec_encode_of_loaded {s : State} (hs : s.RomsLoaded) (x : Bits64) :
    exec (.encode x) s = .next { s with completed := s.completed ++
      [.encoded x (encodeResult dispatchContents x).1 (encodeResult dispatchContents x).2] } := by
  rw [← hs.dispatch_eq]
  exact exec_eq_complete (.encode x) s

/-- Settles O31: the exact product of a magnitude of at most `2^11` and an entry of at most `10^13` is far below the end
of the range, so it rounds to a finite value. -/
theorem decodeAlwaysYieldsFiniteValue : Obligations.DecodeAlwaysYieldsFiniteValue := by
  intro s p hs
  exact ⟨_, exec_decode_of_loaded hs p, isFinite_decodeResult p⟩

/-! ### Words with magnitude 0 (30_encoding.md R41) -/

theorem magnitude_eq_zero_iff (p : Packed) : magnitude p = 0 ↔ p.toNat < 64 := by
  rw [magnitude, BitVec.toNat_ushiftRight, Nat.shiftRight_eq_div_pow]
  omega

theorem card_magnitude_eq_zero : (Finset.univ.filter (fun p : Packed => magnitude p = 0)).card = 64 := by
  have himage : Finset.univ.filter (fun p : Packed => magnitude p = 0) =
      (Finset.range 64).image (BitVec.ofNat 16) := by
    ext p
    simp only [Finset.mem_filter, Finset.mem_univ, true_and, magnitude_eq_zero_iff, Finset.mem_image, Finset.mem_range]
    refine ⟨fun h => ⟨p.toNat, h, by simp⟩, ?_⟩
    rintro ⟨n, hn, rfl⟩
    rw [BitVec.toNat_ofNat]
    omega
  rw [himage, Finset.card_image_of_injOn, Finset.card_range]
  intro m hm n hn h
  have h := congrArg BitVec.toNat h
  simp only [Finset.coe_range, Set.mem_Iio, BitVec.toNat_ofNat] at hm hn h
  omega

/-- A zero magnitude decodes to the zero with the word's value sign (the spec's decision D13). -/
theorem decodeResult_of_magnitude_zero {p : Packed} (h : magnitude p = 0) :
    decodeResult multContents p = withSign (valueSign p) 0#63 := by
  obtain ⟨hfin, hsign, -⟩ := multiplier_bounds p
  have hzero : magNum (signedMagnitude p) = 0 := by
    rw [signedMagnitude_eq, h, rn_zero]
    cases valueSign p <;> decide
  rw [decodeResult, fmul_of_finite (isFinite_signedMagnitude p) hfin, signBit_signedMagnitude, hsign, Bool.xor_false,
    hzero, Nat.zero_mul, rn_zero]

/-! ### The bucket an ENCODE selects (10_state.md R11, 40_encode.md R54) -/

theorem row?_decadeOf (rom : DispatchRom) (j : Fin 31) : rom.row? (decadeOf j) = some rom.rows[j] := by
  have hj : j.val < 31 := j.isLt
  rw [DispatchRom.row?, if_pos (by unfold decadeOf; omega),
    show (15 - decadeOf j).toNat = j.val by unfold decadeOf; omega]
  exact Vector.getElem?_eq_getElem j.isLt

theorem thr?_above_top (rom : DispatchRom) : rom.thr? (decadeOf 0 + 1) = some rom.bound := rfl

/-- Above any other row lies the threshold of the row before it. -/
theorem thr?_above_succ (rom : DispatchRom) (i : Fin 30) :
    rom.thr? (decadeOf i.succ + 1) = some rom.rows[i.castSucc].thr := by
  have hdecade : decadeOf i.succ + 1 = decadeOf i.castSucc := by
    simp only [decadeOf, Fin.val_succ, Fin.val_castSucc]
    omega
  rw [hdecade, DispatchRom.thr?, if_neg (by unfold decadeOf; omega), row?_decadeOf, Option.map_some]

/-- The row the downward tests select, below the overflow bound, is that of a bucket around the magnitude. -/
theorem selectBucket_bounds {rom : DispatchRom} {a : Bits64} {row : DispatchRow} (hbound : ¬ rom.bound ≤ a)
    (h : selectBucket rom a = some row) :
    ∃ (j : Fin 31) (hi : Bits64), rom.row? (decadeOf j) = some row ∧ rom.thr? (decadeOf j + 1) = some hi ∧
      row.thr ≤ a ∧ a < hi := by
  obtain ⟨hthr, n, hn, rfl, habove⟩ := List.find?_eq_some_iff_getElem.mp h
  obtain ⟨j, rfl⟩ : ∃ j : Fin 31, j.val = n := ⟨⟨n, by simpa using hn⟩, rfl⟩
  have hrow := row?_decadeOf rom j
  have hthr : rom.rows[j].thr ≤ a := by simpa using hthr
  cases j using Fin.cases with
  | zero => exact ⟨0, _, hrow, thr?_above_top rom, hthr, BitVec.not_le.mp hbound⟩
  | succ i =>
    refine ⟨i.succ, _, hrow, thr?_above_succ rom i, hthr, BitVec.not_le.mp ?_⟩
    simpa using habove i.val (by simp)

/-! ### The magnitude field of an encoded word is never 0 (40_encode.md R56, R57) -/

/-- A bucket's scale takes its threshold and its upper bound to 100 and 1000, give or take 1: a test in natural
numbers. -/
abbrev ScalesToThreeDigits (row : DispatchRow) (hi : Bits64) : Prop :=
  isFinite row.scale = true ∧ signBit row.scale = false ∧ isFinite hi = true ∧ signBit hi = false ∧
  99 * (magDen row.thr * magDen row.scale) ≤ magNum row.thr * magNum row.scale ∧
  magNum hi * magNum row.scale ≤ 1001 * (magDen hi * magDen row.scale)

theorem top_scalesToThreeDigits :
    ScalesToThreeDigits dispatchContents.rows[(0 : Fin 31)] dispatchContents.bound := by
  decide

theorem succ_scalesToThreeDigits : ∀ i : Fin 30,
    ScalesToThreeDigits dispatchContents.rows[i.succ] dispatchContents.rows[i.castSucc].thr := by
  decide

theorem scalesToThreeDigits_of_bucket {j : Fin 31} {row : DispatchRow} {hi : Bits64}
    (hrow : dispatchContents.row? (decadeOf j) = some row) (hhi : dispatchContents.thr? (decadeOf j + 1) = some hi) :
    ScalesToThreeDigits row hi := by
  rw [row?_decadeOf] at hrow
  obtain rfl := Option.some.inj hrow
  cases j using Fin.cases with
  | zero =>
    rw [thr?_above_top] at hhi
    exact Option.some.inj hhi ▸ top_scalesToThreeDigits
  | succ i =>
    rw [thr?_above_succ] at hhi
    exact Option.some.inj hhi ▸ succ_scalesToThreeDigits i

theorem isFinite_of_le {a b : Bits64} (hb : signBit b = false) (hfin : isFinite b = true) (h : a ≤ b) :
    isFinite a = true := by
  rw [signBit_eq_false_iff] at hb
  rw [isFinite_iff] at hfin ⊢
  have hle := BitVec.le_def.mp h
  omega

/-- In its bucket a magnitude is scaled to three digits, give or take 2. -/
theorem f64_fmul_scale_mem {row : DispatchRow} {a hi : Bits64} (hrow : ScalesToThreeDigits row hi)
    (ha : signBit a = false) (hlow : row.thr ≤ a) (hhigh : a ≤ hi) :
    isFinite (fmul a row.scale) = true ∧ 98 ≤ f64 (fmul a row.scale) ∧ f64 (fmul a row.scale) ≤ 1002 := by
  obtain ⟨hfin, hsign, hhi, hhisign, hlowtest, hhightest⟩ := hrow
  have hafin := isFinite_of_le hhisign hhi hhigh
  have hlow' : 99 ≤ |f64 a| * |f64 row.scale| :=
    (natCast_le_abs_f64_mul hlowtest).trans (mul_le_mul_of_nonneg_right (abs_f64_le_of_le ha hlow) (abs_nonneg _))
  have hhigh' : |f64 a| * |f64 row.scale| ≤ 1001 :=
    (mul_le_mul_of_nonneg_right (abs_f64_le_of_le hhisign hhigh) (abs_nonneg _)).trans
      (abs_f64_mul_le_natCast hhightest)
  have herr := abs_sub_le_iff.mp (abs_f64_fmul_sub_le hafin hfin (by norm_num) (by norm_num) hhigh')
  have hpos : |f64 (fmul a row.scale)| = f64 (fmul a row.scale) := by
    rw [f64_of_nonneg (by rw [signBit_fmul hafin hfin, ha, hsign]; rfl), abs_of_nonneg (by positivity)]
  rw [hpos] at herr
  refine ⟨isFinite_fmul hafin hfin ((hhigh'.trans (by norm_num)).trans_lt two_pow_200_lt), ?_, ?_⟩
  · linarith [herr.2]
  · linarith [herr.1]

/-- Rounding half up gives the integer part or the next integer (40_encode.md R50). -/
theorem roundHalfUp_mem {v : Bits64} (h : isFinite v = true) :
    ⌊f64 v⌋ ≤ roundHalfUp v ∧ roundHalfUp v ≤ ⌊f64 v⌋ + 1 := by
  rw [roundHalfUp_of_finite h, f64, Rat.floor_intCast_div_natCast]
  split <;> omega

theorem quantize_mem {row : DispatchRow} {a : Bits64} (hbound : ¬ dispatchContents.bound ≤ a)
    (ha : signBit a = false) (hrow : selectBucket dispatchContents a = some row) :
    98 ≤ quantize row a ∧ quantize row a ≤ 1003 := by
  obtain ⟨j, hi, hj, hhi, hlow, hhigh⟩ := selectBucket_bounds hbound hrow
  obtain ⟨hfin, hge, hle⟩ := f64_fmul_scale_mem (scalesToThreeDigits_of_bucket hj hhi) ha hlow
    (BitVec.le_of_lt hhigh)
  obtain ⟨hfloor, hceil⟩ := roundHalfUp_mem hfin
  have hge' : 98 ≤ ⌊f64 (fmul a row.scale)⌋ := Int.le_floor.mpr (by exact_mod_cast hge)
  have hle' : ⌊f64 (fmul a row.scale)⌋ ≤ 1002 := Int.cast_le.mp ((Int.floor_le _).trans (by exact_mod_cast hle))
  unfold quantize
  omega

/-- A word that ENCODE records is 0x0000, or its magnitude is not 0. -/
theorem encodeResult_eq_zero_or_magnitude_ne_zero (x : Bits64) :
    (encodeResult dispatchContents x).1 = 0x0000#16 ∨ magnitude (encodeResult dispatchContents x).1 ≠ 0 := by
  simp only [encodeResult]
  obtain ⟨-, hexit⟩ | ⟨-, -, hexit⟩ | ⟨row, -, hbound, hrow, hexit⟩ | ⟨-, -, -, hexit⟩ :=
    classify_cases dispatchContents (absBits x)
  · exact .inl (by rw [hexit, packedForExit])
  · exact .inl (by rw [hexit, packedForExit])
  · right
    obtain ⟨hge, hle⟩ := quantize_mem hbound (signBit_absBits x) hrow
    rw [hexit, packedForExit, magnitude_pack, BitVec.toNat_ofInt]
    omega
  · exact .inl (by rw [hexit, packedForExit])

/-- Settles O33: the words with magnitude 0 are the numbers below 64; the product of a zero and a finite entry is a zero
with the word's sign; and in a bucket the emitted magnitude lies near 100..1000, so it is not 0 modulo 1024. -/
theorem zeroWordsDecodeToSignedZero : Obligations.ZeroWordsDecodeToSignedZero := by
  refine ⟨card_magnitude_eq_zero, fun s p hs hp => ?_, fun s x p hs hexec hp => ?_⟩
  · have hzero : withSign (valueSign p) 0#63 =
        if p.getLsbD 5 then 0x8000000000000000#64 else 0x0000000000000000#64 := by
      rw [valueSign]
      cases p.getLsbD 5 <;> rfl
    rw [exec_decode_of_loaded hs, decodeResult_of_magnitude_zero hp, hzero]
  · rw [exec_encode_of_loaded hs] at hexec
    simp only [Host.Outcome.next.injEq, State.mk.injEq, true_and, List.append_cancel_left_eq, List.cons.injEq,
      Completion.encoded.injEq, and_true] at hexec
    obtain ⟨rfl, -⟩ := hexec
    exact (encodeResult_eq_zero_or_magnitude_ne_zero x).resolve_right (not_not_intro hp)

end Sys2Proof.Machine

/-! Proofs of the family 40_encode.md: what an ENCODE that takes a given exit records, for the exits of a zero and of an
overflow. -/

namespace Sys2Proof.Machine

/-- The exit an operand takes settles the record, whatever else the state holds (60_exceptions.md R93). -/
theorem exec_encode_of_classify {s : State} {x : Bits64} {exit : EncodeExit}
    (h : classify s.dispatch (absBits x) = exit) :
    exec (.encode x) s =
      .next { s with completed := s.completed ++ [.encoded x (packedForExit exit x) exit.ok] } := by
  subst h
  exact exec_eq_complete (.encode x) s

/-! ### Zero operands (40_encode.md R51) -/

theorem magBits_eq_zero_iff (x : Bits64) :
    x.extractLsb' 0 63 = 0#63 ↔ x = 0x0000000000000000#64 ∨ x = 0x8000000000000000#64 := by
  simp only [← BitVec.toNat_inj, BitVec.extractLsb'_toNat, Nat.shiftRight_zero, BitVec.toNat_ofNat]
  omega

theorem absBits_of_magBits_zero {x : Bits64} (h : x.extractLsb' 0 63 = 0#63) : absBits x = 0#64 := by
  rw [absBits, h]
  rfl

/-- Settles O16: the magnitude bits of a zero are all clear, and the test for a zero is made first. -/
theorem encodeOfZeroSucceeds : Obligations.EncodeOfZeroSucceeds := by
  refine fun s x => ⟨magBits_eq_zero_iff x, fun h => ?_⟩
  refine exec_encode_of_classify (exit := .zero) ?_
  rw [absBits_of_magBits_zero h, classify_zero]

/-! ### Overflow (40_encode.md R53) -/

/-- The overflow bound is positive, so a magnitude that meets it is not a zero. -/
theorem classify_loaded_overflow {a : Bits64} (h : 0x4341C37937E08000#64 ≤ a) :
    classify dispatchContents a = .overflow := by
  refine classify_overflow ?_ h
  rintro rfl
  exact absurd h (by decide)

/-- Settles O17: a magnitude at or above the bound takes the overflow exit, whose word is 0x0000 and which fails. -/
theorem encodeOverflowFails : Obligations.EncodeOverflowFails := by
  intro s x hs h
  refine exec_encode_of_classify (exit := .overflow) ?_
  rw [hs.dispatch_eq]
  exact classify_loaded_overflow h

end Sys2Proof.Machine

/-! Proofs of the family 41_decode.md: the decoder's conversion of the magnitude to binary64. -/

namespace Sys2Proof.Machine

/-! ### `RN` of an integer below `2^53` (41_decode.md R75) -/

/-- The last place around a positive integer below `2^53` is 1 or a power of two below 1, so it divides the integer. -/
theorem lastPlace_one_nonpos {m : Nat} (hpos : 0 < m) (h : m < 2 ^ 53) : lastPlace m 1 ≤ 0 := by
  have hlt : (m : ℚ) / (1 : Nat) < 2 ^ (53 : Int) := by
    rw [Nat.cast_one, div_one]
    exact_mod_cast h
  have hlog : floorLog2 m 1 < 53 :=
    (zpow_lt_zpow_iff_right₀ one_lt_two).mp ((floorLog2_spec hpos one_pos).1.trans_lt hlt)
  exact max_le (by omega) (by decide)

theorem scaleUp_of_nonpos (n : Nat) {u : Int} (hu : u ≤ 0) : scaleUp n u = n := by
  rw [scaleUp, Int.toNat_of_nonpos hu, pow_zero, Nat.mul_one]

/-- An integer is its own nearest integer. -/
theorem nearestEvenInt_one (n : Nat) : nearestEvenInt n 1 = n := by
  simp [nearestEvenInt, Nat.mod_one]

/-- In units of its last place an integer below `2^53` is again an integer, and nothing is rounded away. -/
theorem roundedSignificand_one {m : Nat} (hpos : 0 < m) (h : m < 2 ^ 53) :
    roundedSignificand m 1 = scaleUp m (-lastPlace m 1) := by
  rw [roundedSignificand, scaleUp_of_nonpos 1 (lastPlace_one_nonpos hpos h), nearestEvenInt_one]

/-- `RN` of an integer below `2^53`, under either sign, stands for that integer. -/
theorem abs_f64_rn_one (s : Bool) {m : Nat} (h : m < 2 ^ 53) : |f64 (withSign s (rn m 1))| = m := by
  obtain rfl | hpos := Nat.eq_zero_or_pos m
  · rw [rn_zero, f64_withSign_zero, abs_zero, Nat.cast_zero]
  have hfin : rnBits m 1 < 0x7FF0000000000000 := by
    refine rnBits_lt_of_lt hpos one_pos (lt_trans ?_ two_pow_200_lt)
    rw [Nat.cast_one, div_one]
    exact_mod_cast h.trans (by decide)
  have hplace := scaleUp_of_nonpos 1 (lastPlace_one_nonpos hpos h)
  calc |f64 (withSign s (rn m 1))|
      = roundedSignificand m 1 * 2 ^ lastPlace m 1 := abs_f64_rn hpos one_pos s hfin
    _ = (scaleUp m (-lastPlace m 1) : ℚ) / scaleUp 1 (lastPlace m 1) * 2 ^ lastPlace m 1 := by
        rw [roundedSignificand_one hpos h, hplace, Nat.cast_one, div_one]
    _ = (m : ℚ) / (1 : Nat) := (div_eq_scaleUp_div_scaleUp_mul m 1 _).symm
    _ = m := by rw [Nat.cast_one, div_one]

theorem signBit_bits64OfNat (m : Nat) : signBit (bits64OfNat m) = false := signBit_withSign false _

/-- A pattern with a clear sign bit stands for its own magnitude. -/
theorem abs_f64_of_nonneg {b : Bits64} (h : signBit b = false) : |f64 b| = f64 b := by
  rw [abs_f64_eq_div, f64_of_nonneg h]

theorem f64_bits64OfNat {m : Nat} (h : m < 2 ^ 53) : f64 (bits64OfNat m) = m := by
  rw [← abs_f64_of_nonneg (signBit_bits64OfNat m), bits64OfNat, abs_f64_rn_one false h]

/-- Settles O29: an integer below `2^53` is a multiple of its last place, so its one rounding is exact; a magnitude is
such an integer, being ten bits wide. -/
theorem magnitudeConversionIsExact : Obligations.MagnitudeConversionIsExact := by
  refine ⟨fun p => ?_, fun m h => ⟨f64_bits64OfNat h, signBit_bits64OfNat m⟩⟩
  have hlt := magnitude_lt p
  exact ⟨magnitude_eq_extract p, Nat.le_of_lt_succ hlt, f64_bits64OfNat (hlt.trans (by decide))⟩

end Sys2Proof.Machine

/-! Proofs of the family 60_exceptions.md: the range errors are the only failures of an ENCODE. -/

namespace Sys2Proof.Machine

/-! ### The status of an exit (60_exceptions.md R90, R93) -/

/-- A failing exit shows no cause: its word is 0x0000 (the spec's decision D10). -/
theorem packedForExit_of_not_ok {exit : EncodeExit} (h : exit.ok = false) (x : Bits64) :
    packedForExit exit x = 0x0000#16 := by
  cases exit with
  | zero => rfl
  | overflow => rfl
  | bucket row => cases h
  | underflow => rfl

/-- The least threshold is `THR[-15]`, the last row's. -/
theorem least_threshold :
    (∃ row ∈ dispatchContents.rows.toList, row.thr = 0x3CD203AF9EE75616#64) ∧
    ∀ row ∈ dispatchContents.rows.toList, 0x3CD203AF9EE75616#64 ≤ row.thr := by
  decide

/-- With the ROM loaded, the magnitudes that select no bucket are those below `THR[-15]` (40_encode.md R55). -/
theorem selectBucket_loaded_none_iff {a : Bits64} :
    selectBucket dispatchContents a = none ↔ a < 0x3CD203AF9EE75616#64 := by
  obtain ⟨⟨last, hmem, hlast⟩, hleast⟩ := least_threshold
  rw [selectBucket_none]
  refine ⟨fun h => BitVec.not_le.mp (hlast ▸ h last hmem), fun h row hrow hthr => ?_⟩
  exact BitVec.not_le.mpr h (BitVec.le_trans (hleast row hrow) hthr)

/-- With the ROM loaded, the exit an operand takes fails exactly when the operand is a range error. -/
theorem classify_loaded_ok_eq_false_iff (x : Bits64) :
    (classify dispatchContents (absBits x)).ok = false ↔ IsRangeError x := by
  obtain ⟨h0, hexit⟩ | ⟨h0, hbound, hexit⟩ | ⟨row, -, hbound, hrow, hexit⟩ | ⟨h0, -, hrow, hexit⟩ :=
    classify_cases dispatchContents (absBits x)
  · exact iff_of_false (by simp [hexit, EncodeExit.ok]) fun h => h.1 h0
  · exact iff_of_true (by rw [hexit, EncodeExit.ok]) ⟨h0, .inl hbound⟩
  · refine iff_of_false (by simp [hexit, EncodeExit.ok]) ?_
    rintro ⟨-, hover | hunder⟩
    · exact hbound hover
    · simp [selectBucket_loaded_none_iff.mpr hunder] at hrow
  · exact iff_of_true (by rw [hexit, EncodeExit.ok]) ⟨h0, .inr (selectBucket_loaded_none_iff.mp hrow)⟩

/-! ### Infinities and NaNs (40_encode.md R63) -/

theorem not_finite_of_isInf_or_isNaN {x : Bits64} (h : isInf x = true ∨ isNaN x = true) : isFinite x = false := by
  simp only [isInf, isNaN, Bool.and_eq_true] at h
  have hexp : (expField x == 0x7FF) = true := h.elim And.left And.left
  rw [isFinite, bne, hexp, Bool.not_true]

theorem toNat_absBits (x : Bits64) : (absBits x).toNat = x.toNat % 2 ^ 63 := by
  rw [absBits, BitVec.toNat_setWidth, BitVec.extractLsb'_toNat, Nat.shiftRight_zero]
  omega

/-- The magnitude bits of a pattern that is not finite lie above those of every finite one, so above the overflow
bound. -/
theorem isRangeError_of_not_finite {x : Bits64} (h : isFinite x = false) : IsRangeError x := by
  have hmag : 0x7FF0000000000000 ≤ (absBits x).toNat := by
    rw [toNat_absBits]
    exact not_lt.mp fun hlt => Bool.eq_false_iff.mp h (isFinite_iff.mpr hlt)
  exact ⟨by bv_omega, .inl (by bv_omega)⟩

/-- Settles O20: of the four exits of an ENCODE, overflow and underflow fail, and with the ROM loaded these are taken by
the range errors; an infinity or a NaN overflows. -/
theorem rangeErrorIsTheOnlyFailure : Obligations.RangeErrorIsTheOnlyFailure := by
  intro s x hs
  have hok := classify_loaded_ok_eq_false_iff x
  refine ⟨_, _, exec_encode_of_loaded hs x, hok, fun hfail => packedForExit_of_not_ok hfail x, fun h => ?_⟩
  exact hok.mpr (isRangeError_of_not_finite (not_finite_of_isInf_or_isNaN h))

end Sys2Proof.Machine

/-! Proofs about requests: their strings of bits, presenting one, their lines, and a packed word as bytes
(30_encoding.md R30, R45; 20_memory.md R23, R24). -/

namespace Sys2Proof.Machine

/-! ### Bits and numbers (00_scope.md R7) -/

theorem natOfBits_bitsOfNat (n v : Nat) : natOfBits (bitsOfNat n v) = v % 2 ^ n := by
  induction n generalizing v with
  | zero => simp [bitsOfNat, natOfBits, Nat.mod_one]
  | succ n ih =>
    have hbit : (v % 2 == 1).toNat = v % 2 := by
      obtain h | h := Nat.mod_two_eq_zero_or_one v <;> simp [h]
    rw [bitsOfNat, natOfBits, ih, hbit, Nat.pow_succ', Nat.mod_mul]

theorem natOfBits_cons_mod_two (b : Bool) (bits : List Bool) : (natOfBits (b :: bits) % 2 == 1) = b := by
  cases b <;> simp [natOfBits]

theorem natOfBits_cons_div_two (b : Bool) (bits : List Bool) : natOfBits (b :: bits) / 2 = natOfBits bits := by
  have hb : b.toNat < 2 := b.toNat_lt
  simp only [natOfBits]
  omega

theorem bitsOfNat_natOfBits (bits : List Bool) : bitsOfNat bits.length (natOfBits bits) = bits := by
  induction bits with
  | nil => rfl
  | cons b bits ih => rw [List.length_cons, bitsOfNat, natOfBits_cons_mod_two, natOfBits_cons_div_two, ih]

theorem natOfBits_lt (bits : List Bool) : natOfBits bits < 2 ^ bits.length := by
  have h := natOfBits_bitsOfNat bits.length (natOfBits bits)
  rw [bitsOfNat_natOfBits] at h
  exact h ▸ Nat.mod_lt _ (Nat.two_pow_pos _)

/-! ### Strings of bits that are requests (30_encoding.md R30) -/

theorem decodeBits_encode {operand : List Bool} (h : operand.length = 64) :
    decodeBits (false :: operand) = .ok (.encode (BitVec.ofNat 64 (natOfBits operand))) := by
  simp [decodeBits, requestOfBits, portWidth, h, Except.map, Request.toInstr]

theorem decodeBits_decode {operand : List Bool} (h : operand.length = 16) :
    decodeBits (true :: operand) = .ok (.decode (BitVec.ofNat 16 (natOfBits operand))) := by
  simp [decodeBits, requestOfBits, portWidth, h, Except.map, Request.toInstr]

/-- The operand bits of a word read back as the word. -/
theorem ofNat_natOfBits_toNat {w : Nat} (x : BitVec w) : BitVec.ofNat w (natOfBits (bitsOfNat w x.toNat)) = x := by
  rw [natOfBits_bitsOfNat, Nat.mod_eq_of_lt x.isLt, BitVec.ofNat_toNat, BitVec.setWidth_eq]

theorem bitsOfNat_toNat_ofNat {w : Nat} {operand : List Bool} (h : operand.length = w) :
    bitsOfNat w (BitVec.ofNat w (natOfBits operand)).toNat = operand := by
  subst h
  rw [BitVec.toNat_ofNat, Nat.mod_eq_of_lt (natOfBits_lt operand), bitsOfNat_natOfBits]

theorem toInstr_toRequest (i : Instr) : i.toRequest.toInstr = i := by
  cases i <;> rfl

theorem decodeBits_encodeBits (i : Instr) : decodeBits (encodeBits i) = .ok i := by
  cases i with
  | encode x => rw [encodeBits, decodeBits_encode (Laws.length_bitsOfNat _ _), ofNat_natOfBits_toNat]
  | decode p => rw [encodeBits, decodeBits_decode (Laws.length_bitsOfNat _ _), ofNat_natOfBits_toNat]

theorem encodeBits_of_decodeBits {bits : List Bool} {i : Instr} (h : decodeBits bits = .ok i) :
    encodeBits i = bits := by
  cases hr : requestOfBits bits with
  | error e => simp [decodeBits, hr, Except.map] at h
  | ok r =>
    obtain ⟨op, operand, rfl, hlen⟩ := requestOfBits_ok hr
    cases op with
    | false =>
      rw [decodeBits_encode hlen, Except.ok.injEq] at h
      exact h ▸ congrArg (List.cons false) (bitsOfNat_toNat_ofNat (w := 64) hlen)
    | true =>
      rw [decodeBits_decode hlen, Except.ok.injEq] at h
      exact h ▸ congrArg (List.cons true) (bitsOfNat_toNat_ofNat (w := 16) hlen)

/-! ### A row's number (log entry 1) -/

/-- A select bit and a whole operand, read as a row's number of at least as many bits, come back. -/
theorem tableWordBits_natOfBits {nbits : Nat} {op : Bool} {operand : List Bool} (hlen : operand.length = portWidth op)
    (hn : 1 + portWidth op ≤ nbits) : tableWordBits nbits (natOfBits (op :: operand)) = op :: operand := by
  have hwidth : (op :: operand).length = 1 + portWidth op := by rw [List.length_cons, hlen, Nat.add_comm]
  have hlt : natOfBits (op :: operand) < 2 ^ (1 + portWidth op) := hwidth ▸ natOfBits_lt (op :: operand)
  have hmod : natOfBits (op :: operand) % 2 ^ nbits = natOfBits (op :: operand) :=
    Nat.mod_eq_of_lt (hlt.trans_le (Nat.pow_le_pow_right (by decide) hn))
  simp only [tableWordBits, hmod, natOfBits_cons_mod_two, if_neg (show nbits ≠ 0 by omega), if_pos hlt]
  rw [← hwidth, bitsOfNat_natOfBits]

theorem tableWordBits_encodeBits (i : Instr) : tableWordBits 65 (natOfBits (encodeBits i)) = encodeBits i := by
  cases i with
  | encode x => exact tableWordBits_natOfBits (Laws.length_bitsOfNat _ _) (by decide)
  | decode p => exact tableWordBits_natOfBits (Laws.length_bitsOfNat _ _) (by decide)

/-- Settles O3: bits and numbers are inverse to each other at a fixed length, and the select bit fixes the length of the
operand that follows it. -/
theorem decodeAndEncodeAgree : Obligations.DecodeAndEncodeAgree := by
  refine ⟨fun i _ => ⟨toInstr_toRequest i, decodeBits_encodeBits i, ?_⟩, fun _ _ => encodeBits_of_decodeBits⟩
  rw [decodeTableWord, tableWordBits_encodeBits, decodeBits_encodeBits]
  rfl

/-! ### Presenting a string of bits (20_memory.md R24) -/

theorem requestOfBits_of_width {op : Bool} {operand : List Bool} (h : operand.length = portWidth op) :
    ∃ r, requestOfBits (op :: operand) = .ok r := by
  simp [requestOfBits, h]

theorem present_of_width_ne {op : Bool} {operand : List Bool} (h : operand.length ≠ portWidth op) (s : State) :
    State.present (op :: operand) s = .refused .operandWidth := by
  simp [State.present, requestOfBits, h]

theorem present_of_ok {bits : List Bool} {r : Request} (h : requestOfBits bits = .ok r) (s : State) :
    State.present bits s = .next (s.enqueue r) := by
  simp [State.present, h]

/-- A request read from a string of bits asks for the operation of exactly those bits. -/
theorem encodeBits_toInstr {bits : List Bool} {r : Request} (h : requestOfBits bits = .ok r) :
    encodeBits r.toInstr = bits :=
  encodeBits_of_decodeBits (by rw [decodeBits, h]; rfl)

/-- Settles O4: only an operand of the port's width reads as a request, and only the encoding of an operation decodes to
it. -/
theorem presentedBitsAreQueuedOrRefused : Obligations.PresentedBitsAreQueuedOrRefused := by
  refine fun s => ⟨rfl, fun op operand => ⟨fun hlen => ?_, fun hlen => present_of_width_ne hlen s⟩⟩
  obtain ⟨r, hr⟩ := requestOfBits_of_width hlen
  exact ⟨r, present_of_ok hr s, encodeBits_toInstr hr⟩

/-! ### Lines (30_encoding.md R45) -/

theorem hexValue_hexDigit : ∀ v < 16, hexValue (hexDigit v) = some v := by
  decide

theorem length_hexDigits (n v : Nat) : (hexDigits n v).length = n := by
  induction n with
  | zero => rfl
  | succ n ih => rw [hexDigits, List.length_cons, ih]

/-- The digits of a number are read into its low digits, above what was read before. -/
theorem readHex_hexDigits (n acc v : Nat) : readHex acc (hexDigits n v) = some (acc * 16 ^ n + v % 16 ^ n) := by
  induction n generalizing acc with
  | zero => simp [hexDigits, readHex, Nat.mod_one]
  | succ n ih =>
    have hdigit := hexValue_hexDigit (v / 16 ^ n % 16) (Nat.mod_lt _ (by decide))
    simp only [hexDigits, readHex, hdigit, ih]
    rw [Nat.pow_succ, Nat.mod_mul]
    congr 1
    ring

theorem readHex_toNat {w n : Nat} (x : BitVec w) (h : 2 ^ w = 16 ^ n) :
    (readHex 0 (hexDigits n x.toNat)).map (BitVec.ofNat w) = some x := by
  have hlt : x.toNat < 16 ^ n := h ▸ x.isLt
  rw [readHex_hexDigits, Nat.zero_mul, Nat.zero_add, Nat.mod_eq_of_lt hlt, Option.map_some, BitVec.ofNat_toNat,
    BitVec.setWidth_eq]

/-- Settles O45: a number of as many bits as its hex digits have is read back from them. -/
theorem requestLinesReadBack : Obligations.RequestLinesReadBack := by
  intro i
  cases i with
  | encode x =>
    have hread : readEncOperand ('0' :: 'x' :: hexDigits 16 x.toNat) = some x := by
      simp [readEncOperand, afterHexMark, length_hexDigits, -Option.map_eq_some_iff,
        readHex_toNat x (n := 16) (by norm_num)]
    simp [readRequest, writeRequest, hread]
  | decode p =>
    have hread : readDecOperand ('0' :: 'x' :: hexDigits 4 p.toNat) = some p := by
      simp [readDecOperand, afterHexMark, length_hexDigits, -Option.map_eq_some_iff,
        readHex_toNat p (n := 4) (by norm_num)]
    simp [readRequest, writeRequest, hread]

/-! ### Bytes (20_memory.md R23) -/

theorem high_append_low (p : Packed) : p.extractLsb' 8 8 ++ p.extractLsb' 0 8 = p := by
  ext i hi
  simp only [BitVec.getElem_append, BitVec.getElem_extractLsb']
  split
  · simp [BitVec.getLsbD_eq_getElem hi]
  · next h => rw [show 8 + (i - 8) = i by omega, BitVec.getLsbD_eq_getElem hi]

theorem deserializeAs_serializeAs (order : ByteOrder) (p : Packed) :
    deserializeAs order (serializeAs order p) = some p := by
  cases order with
  | little => exact congrArg some (high_append_low p)
  | big => exact congrArg some (high_append_low p)

/-- Settles O46: the high byte above the low byte is the word, whichever was stored first. -/
theorem storedWordsReadBack : Obligations.StoredWordsReadBack :=
  fun p => ⟨fun order => deserializeAs_serializeAs order p, deserializeAs_serializeAs _ p⟩

/-! ### The select bit -/

/-- Settles O1: the select is one of two bits, and a step is its request's operation by definition. -/
theorem stepPerformsTheRequestedOperation : Obligations.StepPerformsTheRequestedOperation := by
  refine ⟨fun r => ⟨fun h => by rw [Request.toInstr, if_pos h], fun h => by simp [Request.toInstr, h]⟩, ?_,
    fun s => step_of_nil⟩
  rintro s r rest i hpending rfl -
  simp only [step, State.takeRequest_cons hpending]

/-- Settles O2: an operand of the port's width decodes to the number of its bits. -/
theorem writtenOutRequestsDecode : Obligations.WrittenOutRequestsDecode :=
  ⟨decodeBits_encode rfl, decodeBits_encode rfl, decodeBits_decode rfl, decodeBits_decode rfl⟩

end Sys2Proof.Machine

/-! Proofs about operations, steps and runs: what they answer, that requests are served in order, and the other
arrangements of the units (00_scope.md R5; 20_memory.md R26; 60_exceptions.md R91, R97; 70_reset_and_hazards.md R101 to
R104). -/

namespace Sys2Proof.Machine

/-! ### Outcomes and operands -/

/-- The state a step leads to. -/
def State.stepped (s : State) : State :=
  match s.pending with
  | [] => s
  | r :: rest =>
    { s with pending := rest, completed := s.completed ++ [completionOf s.dispatch s.mult r.toInstr] }

theorem State.stepped_of_cons {s : State} {r : Request} {rest : List Request} (h : s.pending = r :: rest) :
    s.stepped = { s with
      pending := rest, completed := s.completed ++ [completionOf s.dispatch s.mult r.toInstr] } := by
  simp only [State.stepped, h]

theorem step_eq_next_stepped (s : State) : step s = .next s.stepped := by
  cases h : s.pending with
  | nil => rw [step_of_nil h, State.stepped, h]
  | cons r rest => rw [step_of_cons h, State.stepped_of_cons h]

/-- Settles O5: an operation records its completion, and a step that performs none changes nothing. -/
theorem noOperationFaults : Obligations.NoOperationFaults :=
  ⟨fun i s => ⟨_, exec_eq_complete i s⟩, fun s => ⟨_, step_eq_next_stepped s⟩⟩

/-- Settles O7: the two functions are those of the loaded ROMs. -/
theorem resultDependsOnOperandAlone : Obligations.ResultDependsOnOperandAlone :=
  ⟨encodeResult dispatchContents, decodeResult multContents, fun _ hs =>
    ⟨exec_encode_of_loaded hs, exec_decode_of_loaded hs⟩⟩

/-- Settles O43: reset loads the ROMs, and its record is empty. -/
theorem resetMeetsTheInvariant : Obligations.ResetMeetsTheInvariant :=
  ⟨⟨rfl, rfl⟩, ⟨rfl, rfl⟩, fun _ hc => absurd hc List.not_mem_nil⟩

/-! ### The single queue (70_reset_and_hazards.md R103) -/

/-- The state in which every waiting request has been performed, in order. -/
def State.served (s : State) : State :=
  { s with
    pending := []
    completed := s.completed ++ s.pending.map fun r => completionOf s.dispatch s.mult r.toInstr }

theorem State.served_of_nil {s : State} (h : s.pending = []) : s.served = s :=
  State.eq_of_fields rfl rfl h.symm (by simp [State.served, h])

theorem State.served_stepped (s : State) : s.stepped.served = s.served := by
  cases h : s.pending with
  | nil => rw [State.stepped, h]
  | cons r rest =>
    rw [State.stepped_of_cons h]
    exact State.eq_of_fields rfl rfl rfl (by simp [State.served, h])

theorem run_eq_served {n : Nat} {s : State} (h : s.pending.length ≤ n) :
    Sys2Proof.core.run n s = .next s.served := by
  induction n generalizing s with
  | zero => rw [run_zero, State.served_of_nil (List.length_eq_zero_iff.mp (Nat.le_zero.mp h))]
  | succ n ih =>
    cases hp : s.pending with
    | nil => rw [run_succ_of_nil n hp, ih (by simp [hp])]
    | cons r rest =>
      rw [hp, List.length_cons, Nat.add_le_add_iff_right] at h
      rw [run_succ_of_cons n hp, ← State.stepped_of_cons hp, ih (by simpa [State.stepped_of_cons hp] using h),
        State.served_stepped]

/-- Settles O38: by induction on the number of steps; performing the oldest request first does not change what the
requests come to. -/
theorem runServesEveryRequestInOrder : Obligations.RunServesEveryRequestInOrder :=
  fun _ _ => run_eq_served

/-- Settles O39: both records are the old one followed by the results of the requests, each by its operand alone. -/
theorem orderOfRequestsDoesNotMatter : Obligations.OrderOfRequestsDoesNotMatter := by
  intro s reordered hperm
  refine ⟨_, _, run_eq_served le_rfl, run_eq_served hperm.length_eq.ge, ?_⟩
  exact (hperm.map _).append_left _

/-! ### Separate request paths (30_encoding.md R30, 70_reset_and_hazards.md R104) -/

/-- The two-path codec in which each unit has performed every request of its own, in order. -/
def TwoPath.served (m : TwoPath) : TwoPath :=
  { m with
    encPending := []
    decPending := []
    encResults := m.encResults ++ m.encPending.map (encodeResult m.dispatch)
    decResults := m.decResults ++ m.decPending.map (decodeResult m.mult) }

theorem TwoPath.served_of_nil {m : TwoPath} (he : m.encPending = []) (hd : m.decPending = []) : m.served = m := by
  cases m
  simp_all [TwoPath.served]

theorem TwoPath.served_serve (m : TwoPath) (u : UnitName) : (m.serve u).served = m.served := by
  cases u with
  | encoder =>
    cases h : m.encPending with
    | nil => rw [TwoPath.serve_encoder_nil h]
    | cons x rest => simp [TwoPath.serve_encoder_cons h, TwoPath.served, h]
  | decoder =>
    cases h : m.decPending with
    | nil => rw [TwoPath.serve_decoder_nil h]
    | cons p rest => simp [TwoPath.serve_decoder_cons h, TwoPath.served, h]

/-- Serving a unit leaves it one request fewer, and the other unit's requests as they were. -/
theorem TwoPath.pending_serve (m : TwoPath) (u : UnitName) :
    (m.serve u).encPending.length = m.encPending.length - [u].count .encoder ∧
    (m.serve u).decPending.length = m.decPending.length - [u].count .decoder := by
  cases u with
  | encoder =>
    cases h : m.encPending with
    | nil => simp [TwoPath.serve_encoder_nil h, h]
    | cons x rest => simp [TwoPath.serve_encoder_cons h]
  | decoder =>
    cases h : m.decPending with
    | nil => simp [TwoPath.serve_decoder_nil h, h]
    | cons p rest => simp [TwoPath.serve_decoder_cons h]

theorem TwoPath.run_eq_served {schedule : List UnitName} {m : TwoPath}
    (he : m.encPending.length ≤ schedule.count .encoder) (hd : m.decPending.length ≤ schedule.count .decoder) :
    m.run schedule = m.served := by
  induction schedule generalizing m with
  | nil =>
    have he : m.encPending = [] := by simpa using he
    have hd : m.decPending = [] := by simpa using hd
    rw [TwoPath.run_nil, TwoPath.served_of_nil he hd]
  | cons u schedule ih =>
    rw [← List.singleton_append, List.count_append] at he hd
    obtain ⟨henc, hdec⟩ := m.pending_serve u
    rw [TwoPath.run_cons, ih (by omega) (by omega), TwoPath.served_serve]

/-- The single queue returns to each unit the results of that unit's own requests, in order. -/
theorem toTwoPath_served (s : State) : s.served.toTwoPath = s.toTwoPath.served := by
  have henc : s.served.encResults = s.encResults ++ s.toTwoPath.encPending.map (encodeResult s.dispatch) := by
    simp only [State.encResults, State.served, State.toTwoPath, List.filterMap_append, List.filterMap_map,
      List.map_filterMap]
    congr 2
    funext r
    cases h : r.toInstr <;> simp [completionOf, h]
  have hdec : s.served.decResults = s.decResults ++ s.toTwoPath.decPending.map (decodeResult s.mult) := by
    simp only [State.decResults, State.served, State.toTwoPath, List.filterMap_append, List.filterMap_map,
      List.map_filterMap]
    congr 2
    funext r
    cases h : r.toInstr <;> simp [completionOf, h]
  simp only [State.toTwoPath, TwoPath.served, TwoPath.mk.injEq]
  exact ⟨rfl, rfl, rfl, rfl, henc, hdec⟩

/-- Settles O40: the queue and, under every schedule that suffices, the two paths end with every request served. -/
theorem separatePathsReturnTheSameResults : Obligations.SeparatePathsReturnTheSameResults := by
  intro s schedule he hd
  refine ⟨s.served, run_eq_served le_rfl, ?_⟩
  rw [TwoPath.run_eq_served he hd, toTwoPath_served]

/-! ### Reading outputs (70_reset_and_hazards.md R101) -/

/-- A list of results that are a function of the requests is read at the place of the request. -/
theorem encOutput_of_results {s : State} {rom : DispatchRom} {xs : List Bits64}
    (h : s.encResults = xs.map (encodeResult rom)) (n : Nat) :
    s.encOutput n = match xs[n]? with
      | some x => .ok (encodeResult rom x)
      | none => .error .outputNotProduced := by
  cases hx : xs[n]? with
  | none => exact State.encOutput_error (by simp [h, hx])
  | some x => exact State.encOutput_ok (by simp [h, hx])

theorem decOutput_of_results {s : State} {rom : MultRom} {ps : List Packed}
    (h : s.decResults = ps.map (decodeResult rom)) (n : Nat) :
    s.decOutput n = match ps[n]? with
      | some p => .ok (decodeResult rom p)
      | none => .error .outputNotProduced := by
  cases hp : ps[n]? with
  | none => exact State.decOutput_error (by simp [h, hp])
  | some p => exact State.decOutput_ok (by simp [h, hp])

theorem results_of_nothing_completed {s : State} (h : s.completed = []) : s.encResults = [] ∧ s.decResults = [] := by
  simp [State.encResults, State.decResults, h]

/-- Settles O41: a unit's results after the run are those of its own requests, in order, and no others. -/
theorem outputsBelongToTheirRequests : Obligations.OutputsBelongToTheirRequests := by
  refine ⟨fun n s h => ?_, fun s t h hrun n => ?_⟩
  · obtain ⟨henc, hdec⟩ := results_of_nothing_completed h
    exact ⟨State.encOutput_error (by rw [henc]; rfl), State.decOutput_error (by rw [hdec]; rfl)⟩
  · rw [run_eq_served le_rfl] at hrun
    injection hrun with hrun
    subst hrun
    obtain ⟨henc, hdec⟩ := results_of_nothing_completed h
    have hserved := toTwoPath_served s
    have hencServed : s.served.encResults = s.encResults ++ s.toTwoPath.encPending.map (encodeResult s.dispatch) :=
      congrArg TwoPath.encResults hserved
    have hdecServed : s.served.decResults = s.decResults ++ s.toTwoPath.decPending.map (decodeResult s.mult) :=
      congrArg TwoPath.decResults hserved
    rw [henc, List.nil_append] at hencServed
    rw [hdec, List.nil_append] at hdecServed
    exact ⟨encOutput_of_results hencServed n, decOutput_of_results hdecServed n⟩

/-! ### Several codecs (60_exceptions.md R97) -/

/-- Stepping one codec of a list puts its next state in its place. -/
theorem stepInstance_eq_modify (j : Nat) (bank : List State) :
    stepInstance j bank = bank.modify j State.stepped := by
  cases h : bank[j]? with
  | none => rw [stepInstance_of_none h, List.modify_eq_self (List.getElem?_eq_none_iff.mp h)]
  | some s =>
    rw [stepInstance_eq_set h (step_eq_next_stepped s), List.modify_eq_set_getElem?, h]
    rfl

/-- Settles O42: the list changes at the place of the stepped codec alone, and the new state there is the step's. -/
theorem instancesShareNothing : Obligations.InstancesShareNothing := by
  refine ⟨fun j bank s h => ?_, fun i j bank hne => ?_⟩
  · have hstepped : (stepInstance j bank)[j]? = some s.stepped := by
      rw [stepInstance_eq_modify, List.getElem?_modify_eq, h]
      rfl
    exact ⟨⟨_, step_eq_next_stepped s, hstepped⟩, fun r rest hp => by rw [hstepped, State.stepped_of_cons hp]⟩
  · simp only [stepInstance_eq_modify]
    exact ⟨List.getElem?_modify_ne _ _ hne, List.modify_modify_ne _ _ _ hne.symm⟩

end Sys2Proof.Machine

/-! Proofs about the float primitives: rounding and the product are to nearest even, bit order is numeric order, and the
encoder's rounding is half up (00_scope.md R8; 40_encode.md R57, R65). -/

namespace Sys2Proof.Machine

/-! ### Magnitude and sign of a value -/

/-- The factor a sign bit stands for. -/
def signFactor (s : Bool) : ℚ := if s then -1 else 1

@[simp] theorem signFactor_false : signFactor false = 1 := rfl

@[simp] theorem signFactor_true : signFactor true = -1 := rfl

theorem signFactor_not (s : Bool) : signFactor (!s) = -signFactor s := by
  cases s <;> simp

theorem signFactor_xor (s t : Bool) : signFactor (s ^^ t) = signFactor s * signFactor t := by
  cases s <;> cases t <;> simp

theorem f64_eq_signFactor_mul (b : Bits64) : f64 b = signFactor (signBit b) * |f64 b| := by
  rw [abs_f64_eq_div, f64, signedNum]
  cases signBit b <;> simp [neg_div]

/-- A magnitude is a function of the 63 magnitude bits. -/
theorem abs_f64_congr {a b : Bits64} (h : a.toNat % 2 ^ 63 = b.toNat % 2 ^ 63) : |f64 a| = |f64 b| := by
  have he : expField a = expField b := by rw [expField_eq, expField_eq, h]
  have hf : fracField a = fracField b := by rw [fracField_eq, fracField_eq, h]
  simp only [abs_f64, significand, unitExponent, he, hf]

theorem f64_absBits (x : Bits64) : f64 (absBits x) = |f64 x| := by
  rw [← abs_f64_of_nonneg (signBit_absBits x)]
  refine abs_f64_congr ?_
  rw [toNat_absBits, Nat.mod_mod]

theorem isFinite_absBits (x : Bits64) : isFinite (absBits x) = isFinite x := by
  rw [Bool.eq_iff_iff, isFinite_iff, isFinite_iff, toNat_absBits, Nat.mod_mod]

/-! ### Negation -/

theorem withSign_signBit (b : Bits64) : withSign (signBit b) (b.extractLsb' 0 63) = b := by
  apply BitVec.eq_of_toNat_eq
  rw [toNat_withSign, signBit_eq_decide, BitVec.extractLsb'_toNat, Nat.shiftRight_zero]
  have hb := b.isLt
  by_cases h : 2 ^ 63 ≤ b.toNat
  · simp only [h, decide_true, Bool.toNat_true]
    omega
  · simp only [h, decide_false, Bool.toNat_false]
    omega

theorem negate_eq_withSign (b : Bits64) : negate b = withSign (!signBit b) (b.extractLsb' 0 63) := by
  rw [← negate_withSign, withSign_signBit]

theorem toNat_negate_mod (b : Bits64) : (negate b).toNat % 2 ^ 63 = b.toNat % 2 ^ 63 := by
  rw [negate_eq_withSign, toNat_withSign_mod, BitVec.extractLsb'_toNat, Nat.shiftRight_zero]

theorem signBit_negate (b : Bits64) : signBit (negate b) = !signBit b := by
  rw [negate_eq_withSign, signBit_withSign]

theorem f64_negate (b : Bits64) : f64 (negate b) = -f64 b := by
  rw [f64_eq_signFactor_mul, f64_eq_signFactor_mul b, signBit_negate, abs_f64_congr (toNat_negate_mod b),
    signFactor_not, neg_mul]

theorem isFinite_negate (b : Bits64) : isFinite (negate b) = isFinite b := by
  rw [Bool.eq_iff_iff, isFinite_iff, isFinite_iff, toNat_negate_mod]

theorem getLsbD_zero_eq_false_iff {b : Bits64} : b.getLsbD 0 = false ↔ b.toNat % 2 = 0 := by
  rw [BitVec.getLsbD, Nat.testBit_zero, decide_eq_false_iff_not]
  omega

theorem getLsbD_zero_negate {b : Bits64} (h : b.getLsbD 0 = false) : (negate b).getLsbD 0 = false := by
  rw [getLsbD_zero_eq_false_iff] at h ⊢
  have hmag := toNat_negate_mod b
  omega

/-- Rounding to nearest even is symmetric about zero. -/
theorem NearestEven.negate {r : ℚ} {b : Bits64} (h : NearestEven r b) : NearestEven (-r) (negate b) := by
  have hdist (x : ℚ) : |-x - -r| = |x - r| := by rw [← neg_sub', abs_neg]
  have hflip (c : Bits64) : |f64 c - -r| = |f64 (Machine.negate c) - r| := by
    rw [f64_negate, ← hdist, neg_neg]
  refine ⟨(isFinite_negate b).trans h.finite, fun c hc => ?_, fun c hc hne heq => ?_⟩
  · rw [f64_negate, hdist, hflip]
    exact h.nearest _ ((isFinite_negate c).trans hc)
  · rw [f64_negate, hdist, hflip] at heq
    refine getLsbD_zero_negate (h.tie_even _ ((isFinite_negate c).trans hc) ?_ heq)
    rw [f64_negate] at hne ⊢
    exact fun h => hne (neg_eq_iff_eq_neg.mp h)

/-! ### `RN` is to nearest even (00_scope.md R8) -/

/-- A chosen integer at distance 1/2 is even. -/
theorem even_nearestEvenInt_of_tie {n d : Nat} (hd : 0 < d) (h : |(nearestEvenInt n d : ℚ) - n / d| = 1 / 2) :
    nearestEvenInt n d % 2 = 0 := by
  have hdq : (d : ℚ) ≠ 0 := by exact_mod_cast hd.ne'
  have htie : 2 * nearestEvenInt n d * d = 2 * n + d ∨ 2 * nearestEvenInt n d * d + d = 2 * n := by
    obtain h | h := (abs_eq (by norm_num)).mp h
    · left
      field_simp at h
      exact_mod_cast (by linarith : (2 : ℚ) * nearestEvenInt n d * d = 2 * n + d)
    · right
      field_simp at h
      exact_mod_cast (by linarith : (2 : ℚ) * nearestEvenInt n d * d + d = 2 * n)
  have hn : d * (n / d) + n % d = n := Nat.div_add_mod n d
  have hr : n % d < d := Nat.mod_lt n hd
  simp only [nearestEvenInt] at htie ⊢
  split at htie
  · next hup =>
    rw [if_pos hup]
    have hexp : 2 * (n / d + 1) * d = 2 * (d * (n / d)) + 2 * d := by ring
    omega
  · next hdown =>
    rw [if_neg hdown]
    have hexp : 2 * (n / d) * d = 2 * (d * (n / d)) := by ring
    omega

theorem abs_roundedSignificand_sub_le (num : Nat) {den : Nat} (hden : 0 < den) : |(roundedSignificand num den : ℚ) -
    (scaleUp num (-lastPlace num den) : ℚ) / scaleUp den (lastPlace num den)| ≤ 1 / 2 :=
  abs_nearestEvenInt_sub_le (scaleUp_pos _ hden)

/-- At the last place of the largest values, a ratio below the limit rounds to a significand without a carry. -/
theorem roundedSignificand_lt_of_lt_rnLimit {num den : Nat} (hden : 0 < den) (h : (num : ℚ) / den < rnLimit)
    (hu : lastPlace num den = 971) : roundedSignificand num den < 2 ^ 53 := by
  have hnear := (abs_sub_le_iff.mp (abs_roundedSignificand_sub_le num hden)).1
  have hlt : (scaleUp num (-lastPlace num den) : ℚ) / scaleUp den (lastPlace num den) < 2 ^ 53 - 1 / 2 := by
    rw [div_eq_scaleUp_div_scaleUp_mul num den (lastPlace num den)] at h
    refine lt_of_mul_lt_mul_right (h.trans_eq ?_) (by positivity : (0 : ℚ) ≤ 2 ^ lastPlace num den)
    rw [hu, rnLimit, show (971 : Int) = 1 + (970 : Nat) from rfl, zpow_add₀ two_ne_zero, zpow_natCast, ← mul_assoc]
    norm_num
  exact_mod_cast (by linarith : (roundedSignificand num den : ℚ) < 2 ^ 53)

section
variable {num den : Nat} (hnum : 0 < num) (hden : 0 < den)
include hnum hden

/-- In units of its last place a ratio is at least `2^52`, but among the subnormals. -/
theorem lastPlace_eq_or_two_pow_le : lastPlace num den = -1074 ∨
    (2 : ℚ) ^ 52 ≤ (scaleUp num (-lastPlace num den) : ℚ) / scaleUp den (lastPlace num den) := by
  by_cases hsub : floorLog2 num den - 52 ≤ -1074
  · exact .inl (max_eq_right hsub)
  right
  have hle : (2 : ℚ) ^ (52 + lastPlace num den) ≤ num / den := by
    refine (zpow_le_zpow_right₀ one_le_two ?_).trans (floorLog2_spec hnum hden).1
    unfold lastPlace
    omega
  rw [zpow_add₀ two_ne_zero, div_eq_scaleUp_div_scaleUp_mul num den (lastPlace num den),
    mul_le_mul_iff_left₀ (by positivity)] at hle
  exact_mod_cast hle

theorem rnBits_lt_of_lt_rnLimit (h : (num : ℚ) / den < rnLimit) : rnBits num den < 0x7FF0000000000000 := by
  have hlimit : rnLimit ≤ 2 ^ (1024 : Int) := by
    rw [rnLimit, show (1024 : Int) = 54 + (970 : Nat) from rfl, zpow_add₀ two_ne_zero, zpow_natCast]
    exact mul_le_mul_of_nonneg_right (by norm_num) (by positivity)
  have hlog : floorLog2 num den < 1024 :=
    (zpow_lt_zpow_iff_right₀ one_lt_two).mp (((floorLog2_spec hnum hden).1.trans_lt h).trans_le hlimit)
  have hplace : lastPlace num den ≤ 971 := by
    unfold lastPlace
    omega
  have hsig := roundedSignificand_le hnum hden
  rw [rnBits_eq hnum]
  by_cases hu : lastPlace num den = 971
  · have hcarry := roundedSignificand_lt_of_lt_rnLimit hden h hu
    omega
  · omega

/-- `RN` of a positive ratio is the nearest value, ties to even. -/
theorem nearestEven_rn_of_pos (h : (num : ℚ) / den < rnLimit) :
    NearestEven ((num : ℚ) / den) (withSign false (rn num den)) := by
  have hbits := rnBits_lt_of_lt_rnLimit hnum hden h
  have hnat : (withSign false (rn num den)).toNat = rnBits num den := by
    rw [toNat_withSign, rn_of_lt hbits, BitVec.toNat_ofNat, Nat.mod_eq_of_lt (by omega), Bool.toNat_false, Nat.zero_mul,
      Nat.zero_add]
  rw [div_eq_scaleUp_div_scaleUp_mul num den (lastPlace num den)]
  refine nearestEven_of_scaled (m := roundedSignificand num den) ?_ ?_ (lastPlace_eq_or_two_pow_le hnum hden) ?_
    fun htie => ?_
  · rw [isFinite_iff, hnat]
    omega
  · rw [← abs_f64_of_nonneg (signBit_withSign _ _), abs_f64_rn hnum hden false hbits, Int.cast_natCast]
  · rw [Int.cast_natCast]
    exact abs_roundedSignificand_sub_le num hden
  · rw [Int.cast_natCast] at htie
    have heven : roundedSignificand num den % 2 = 0 := even_nearestEvenInt_of_tie (scaleUp_pos _ hden) htie
    rw [getLsbD_zero_eq_false_iff, hnat, rnBits_eq hnum]
    omega

end

/-- The zero of either sign is `RN(0)`. -/
theorem nearestEven_zero (s : Bool) : NearestEven 0 (withSign s 0#63) := by
  refine ⟨isFinite_withSign s (by decide), fun c _ => ?_, fun c _ _ _ => by cases s <;> decide⟩
  rw [f64_withSign_zero, sub_zero, abs_zero]
  exact abs_nonneg _

/-- Settles O10: the significand is the integer nearest the ratio in units of its last place, which is that of the
binary64 values around it. -/
theorem roundingIsNearestEven : Obligations.RoundingIsNearestEven := by
  intro num den hden h
  obtain rfl | hnum := Nat.eq_zero_or_pos num
  · rw [rn_zero, Nat.cast_zero, zero_div]
    exact nearestEven_zero false
  · exact nearestEven_rn_of_pos hnum hden h

/-- `RN` of a ratio under a sign. -/
theorem nearestEven_withSign_rn (s : Bool) {num den : Nat} (hden : 0 < den) (h : (num : ℚ) / den < rnLimit) :
    NearestEven (signFactor s * (num / den)) (withSign s (rn num den)) := by
  have hpos := roundingIsNearestEven num den hden h
  cases s with
  | false => rwa [signFactor_false, one_mul]
  | true =>
    have hneg := hpos.negate
    rwa [negate_withSign, Bool.not_false, ← neg_one_mul] at hneg

/-! ### The product (00_scope.md R8) -/

theorem f64_mul_eq (a b : Bits64) : f64 a * f64 b =
    signFactor (signBit a ^^ signBit b) * (((magNum a * magNum b : Nat) : ℚ) / (magDen a * magDen b : Nat)) := by
  rw [magNum_mul_div_magDen_mul, signFactor_xor]
  conv_lhs => rw [f64_eq_signFactor_mul a, f64_eq_signFactor_mul b]
  ring

theorem nearestEven_fmul {a b : Bits64} (ha : isFinite a = true) (hb : isFinite b = true)
    (h : |f64 a * f64 b| < rnLimit) : NearestEven (f64 a * f64 b) (fmul a b) := by
  rw [abs_mul, ← magNum_mul_div_magDen_mul] at h
  rw [f64_mul_eq, fmul_of_finite ha hb]
  exact nearestEven_withSign_rn _ (Nat.mul_pos (magDen_pos a) (magDen_pos b)) h

/-- Settles O11: the product is `RN` of the exact ratio of the magnitudes, under the XOR of the signs. -/
theorem productIsNearestEven : Obligations.ProductIsNearestEven :=
  fun _ _ ha hb h => ⟨nearestEven_fmul ha hb h, signBit_fmul ha hb⟩

/-! ### Bit order is numeric order (40_encode.md R65) -/

/-- Larger magnitude bits stand for a larger magnitude. -/
theorem mul_two_pow_lt_of_bits_lt {q w q' w' : Nat} (hnorm : w = 0 ∨ 2 ^ 52 ≤ q) (hq : q < 2 ^ 53)
    (hnorm' : w' = 0 ∨ 2 ^ 52 ≤ q') (hq' : q' < 2 ^ 53) (h : w * 2 ^ 52 + q < w' * 2 ^ 52 + q') :
    q * 2 ^ w < q' * 2 ^ w' := by
  obtain hlt | rfl | hgt := lt_trichotomy w w'
  · calc q * 2 ^ w < 2 ^ 53 * 2 ^ w := Nat.mul_lt_mul_of_pos_right hq (Nat.two_pow_pos w)
      _ = 2 ^ 52 * 2 ^ (w + 1) := by ring
      _ ≤ q' * 2 ^ w' := Nat.mul_le_mul (by omega) (Nat.pow_le_pow_right (by decide) hlt)
  · exact Nat.mul_lt_mul_of_pos_right (by omega) (Nat.two_pow_pos w)
  · omega

/-- A larger pattern of the two is a larger magnitude, the signs being clear. -/
theorem f64_lt_of_lt {a b : Bits64} (hb : signBit b = false) (h : a < b) : f64 a < f64 b := by
  have hbn := signBit_eq_false_iff.mp hb
  have hlt := BitVec.lt_def.mp h
  have ha : signBit a = false := signBit_eq_false_iff.mpr (hlt.trans hbn)
  have hbits : a.toNat % 2 ^ 63 < b.toNat % 2 ^ 63 := by omega
  rw [magBits_eq, magBits_eq] at hbits
  have hunits : magUnits a < magUnits b := mul_two_pow_lt_of_bits_lt (significand_normal a) (significand_lt a)
    (significand_normal b) (significand_lt b) hbits
  rw [← abs_f64_of_nonneg ha, ← abs_f64_of_nonneg hb, abs_f64_eq_magUnits_mul, abs_f64_eq_magUnits_mul]
  exact mul_lt_mul_of_pos_right (by exact_mod_cast hunits) (by positivity)

theorem le_iff_f64_le {a b : Bits64} (ha : signBit a = false) (hb : signBit b = false) : b ≤ a ↔ f64 b ≤ f64 a := by
  refine ⟨fun h => ?_, fun h => ?_⟩
  · rw [← abs_f64_of_nonneg ha, ← abs_f64_of_nonneg hb]
    exact abs_f64_le_of_le ha h
  · exact BitVec.not_lt.mp fun hlt => absurd h (not_le.mpr (f64_lt_of_lt hb hlt))

theorem lt_iff_f64_lt {a b : Bits64} (ha : signBit a = false) (hb : signBit b = false) : b < a ↔ f64 b < f64 a := by
  rw [← BitVec.not_le, ← not_le, le_iff_f64_le hb ha]

theorem f64_nonneg {b : Bits64} (h : signBit b = false) : 0 ≤ f64 b :=
  abs_f64_of_nonneg h ▸ abs_nonneg _

/-- Without division, the order of two values. -/
theorem f64_le_iff (a b : Bits64) :
    f64 b ≤ f64 a ↔ signedNum b * (magDen a : Int) ≤ signedNum a * (magDen b : Int) := by
  have ha : (0 : ℚ) < magDen a := by exact_mod_cast magDen_pos a
  have hb : (0 : ℚ) < magDen b := by exact_mod_cast magDen_pos b
  rw [f64, f64, div_le_div_iff₀ hb ha]
  exact_mod_cast Iff.rfl

theorem isInf_iff {b : Bits64} : isInf b = true ↔ b.toNat % 2 ^ 63 = 0x7FF0000000000000 := by
  rw [isInf, Bool.and_eq_true, beq_iff_eq, beq_iff_eq, expField_eq, fracField_eq]
  omega

theorem isNaN_iff {b : Bits64} : isNaN b = true ↔ 0x7FF0000000000000 < b.toNat % 2 ^ 63 := by
  rw [isNaN, Bool.and_eq_true, beq_iff_eq, bne_iff_ne, expField_eq, fracField_eq]
  omega

theorem isNaN_eq_false_iff {b : Bits64} : isNaN b = false ↔ b.toNat % 2 ^ 63 ≤ 0x7FF0000000000000 := by
  rw [← Bool.not_eq_true, isNaN_iff, not_lt]

/-- The floating-point comparison of nonnegative values that are no NaN is the comparison of the patterns. -/
theorem geFloat_eq_decide {a b : Bits64} (ha : signBit a = false) (hb : signBit b = false) (hna : isNaN a = false)
    (hnb : isNaN b = false) : geFloat a b = decide (b ≤ a) := by
  have ha63 := signBit_eq_false_iff.mp ha
  have hb63 := signBit_eq_false_iff.mp hb
  have hamax := isNaN_eq_false_iff.mp hna
  have hbmax := isNaN_eq_false_iff.mp hnb
  simp only [geFloat, hna, hnb, ha, hb, Bool.or_false, Bool.false_eq_true, if_false, Bool.not_false, Bool.true_or]
  split
  · next hinf =>
    have htop := isInf_iff.mp hinf
    exact (decide_eq_true (BitVec.le_def.mpr (by omega))).symm
  · next hfin =>
    rw [isInf_iff] at hfin
    split
    · next hinf =>
      have htop := isInf_iff.mp hinf
      exact (decide_eq_false (by rw [BitVec.le_def]; omega)).symm
    · rw [decide_eq_decide, le_iff_f64_le ha hb, f64_le_iff]

/-- Settles O12: larger magnitude bits have a larger exponent, or the same exponent and a larger significand. -/
theorem bitOrderIsNumericOrder : Obligations.BitOrderIsNumericOrder := by
  intro a b ha hb hna hnb
  rw [geFloat_eq_decide ha hb hna hnb, decide_eq_true_iff]
  exact ⟨Iff.rfl, fun _ _ => le_iff_f64_le ha hb⟩

/-! ### Round half up (40_encode.md R57) -/

/-- A remainder is at least half of the divisor, said of the fraction it leaves. -/
theorem half_le_sub_floor_iff (n : Int) {d : Nat} (hd : 0 < d) :
    (1 : ℚ) / 2 ≤ (n : ℚ) / d - ⌊(n : ℚ) / d⌋ ↔ (d : Int) ≤ 2 * (n % d) := by
  have hdq : (0 : ℚ) < d := by exact_mod_cast hd
  have hrem : (n : ℚ) / d - ⌊(n : ℚ) / d⌋ = (n % d : Int) / d := by
    rw [Rat.floor_intCast_div_natCast, Int.emod_def, eq_div_iff hdq.ne', sub_mul, div_mul_cancel₀ _ hdq.ne']
    push_cast
    ring
  rw [hrem, le_div_iff₀ hdq, ← @Int.cast_le ℚ]
  push_cast
  constructor <;> intro h <;> linarith

theorem roundHalfUp_eq {v : Bits64} (h : isFinite v = true) : roundHalfUp v = realRoundHalfUp (f64 v) := by
  rw [roundHalfUp_of_finite h, realRoundHalfUp, f64, Rat.floor_intCast_div_natCast]
  simp only [← Rat.floor_intCast_div_natCast, half_le_sub_floor_iff _ (magDen_pos v)]

/-- Twice a remainder holds the divisor once, when it is half of it or more. -/
theorem two_mul_emod_ediv {n d : Int} (hd : 0 < d) : 2 * (n % d) / d = if d ≤ 2 * (n % d) then 1 else 0 := by
  have h0 := Int.emod_nonneg n hd.ne'
  have hlt := Int.emod_lt_of_pos n hd
  split
  · next h => exact (Int.ediv_eq_iff_of_pos hd).mpr (by omega)
  · next h => exact Int.ediv_eq_zero_of_lt (by omega) (by omega)

theorem roundByDoubling_eq {v : Bits64} (h : isFinite v = true) (hs : signBit v = false) :
    roundByDoubling v = roundHalfUp v := by
  have hn : (0 : Int) ≤ signedNum v := signedNum_of_nonneg hs ▸ Int.natCast_nonneg _
  have hd : (0 : Int) < magDen v := by exact_mod_cast magDen_pos v
  have hrem : signedNum v - signedNum v / (magDen v : Int) * (magDen v : Int) = signedNum v % (magDen v : Int) := by
    rw [Int.emod_def, mul_comm]
  have hrem0 := Int.emod_nonneg (signedNum v) hd.ne'
  rw [roundHalfUp_of_finite h, ← two_mul_emod_ediv hd]
  simp only [roundByDoubling, h, if_true]
  rw [Int.tdiv_eq_ediv_of_nonneg hn, hrem, Int.tdiv_eq_ediv_of_nonneg (by omega)]

/-- Settles O13: the fraction is the remainder over the divisor, and twice the remainder holds the divisor at most
once. -/
theorem quantizationRoundsHalfUp : Obligations.QuantizationRoundsHalfUp :=
  fun _ h hs => ⟨roundHalfUp_eq h, roundByDoubling_eq h hs⟩

end Sys2Proof.Machine

/-! Proofs about the dispatch ROM and the choice of a bucket: what the ROM holds, the unique bucket, binary search,
floating-point comparisons, the number of tests, and the operands that fail (10_state.md R11, R12; 40_encode.md R54,
R55, R61, R63, R65; 70_reset_and_hazards.md R105). -/

namespace Sys2Proof.Machine

theorem lt_of_pattern_lt_of_le {a b c : Bits64} (hab : a < b) (hbc : b ≤ c) : a < c :=
  BitVec.lt_def.mpr ((BitVec.lt_def.mp hab).trans_le (BitVec.le_def.mp hbc))

/-! ### The rows by decade (10_state.md R11) -/

theorem exists_decadeOf {d : Int} (hlow : -15 ≤ d) (hhigh : d ≤ 15) : ∃ j : Fin 31, decadeOf j = d := by
  refine ⟨⟨(15 - d).toNat, by omega⟩, ?_⟩
  simp only [decadeOf]
  omega

/-- A row is found at a decade in range, and it is the row of that decade's number. -/
theorem row?_some {rom : DispatchRom} {d : Int} {row : DispatchRow} (h : rom.row? d = some row) :
    ∃ j : Fin 31, decadeOf j = d ∧ rom.rows[j] = row := by
  by_cases hd : -15 ≤ d ∧ d ≤ 15
  · obtain ⟨j, rfl⟩ := exists_decadeOf hd.1 hd.2
    rw [row?_decadeOf] at h
    exact ⟨j, rfl, Option.some.inj h⟩
  · simp [DispatchRom.row?, hd] at h

theorem thr?_of_row? {rom : DispatchRom} {d : Int} {row : DispatchRow} (h : rom.row? d = some row) :
    rom.thr? d = some row.thr := by
  obtain ⟨j, rfl, -⟩ := row?_some h
  rw [DispatchRom.thr?, if_neg (by unfold decadeOf; omega), h, Option.map_some]

/-- A threshold is the overflow bound or that of a row. -/
theorem thr?_some {rom : DispatchRom} {d : Int} {t : Bits64} (h : rom.thr? d = some t) :
    (d = 16 ∧ rom.bound = t) ∨ ∃ j : Fin 31, decadeOf j = d ∧ rom.rows[j].thr = t := by
  by_cases hd : d = 16
  · left
    rw [DispatchRom.thr?, if_pos hd] at h
    exact ⟨hd, Option.some.inj h⟩
  · right
    rw [DispatchRom.thr?, if_neg hd] at h
    obtain ⟨row, hrow, rfl⟩ := Option.map_eq_some_iff.mp h
    obtain ⟨j, hj, rfl⟩ := row?_some hrow
    exact ⟨j, hj, rfl⟩

/-! ### What the ROM holds (10_state.md R11) -/

theorem dispatchContents_isStrictlyNearest : ∀ j : Fin 31,
    IsStrictlyNearest (10 ^ (decadeOf j).toNat) (10 ^ (-decadeOf j).toNat) dispatchContents.rows[j].thr ∧
    IsStrictlyNearest (10 ^ (2 - decadeOf j).toNat) (10 ^ (-(2 - decadeOf j)).toNat) dispatchContents.rows[j].scale := by
  decide

theorem bound_isStrictlyNearest :
    IsStrictlyNearest (10 ^ (16 : Int).toNat) (10 ^ (-(16 : Int)).toNat) dispatchContents.bound := by
  decide

theorem ecode_eq : ∀ j : Fin 31, (dispatchContents.rows[j].ecode.toNat : Int) =
    if 0 ≤ decadeOf j then decadeOf j else 16 - decadeOf j := by
  decide

/-- Settles O9: each threshold, each scale and the bound pass the test for `RN` in natural numbers. -/
theorem dispatchRomHoldsNearestPowers : Obligations.DispatchRomHoldsNearestPowers := by
  refine ⟨fun d hlow hhigh => ?_, nearestEven_ten_zpow bound_isStrictlyNearest⟩
  obtain ⟨j, rfl⟩ := exists_decadeOf hlow hhigh
  obtain ⟨hthr, hscale⟩ := dispatchContents_isStrictlyNearest j
  exact ⟨_, row?_decadeOf _ j, nearestEven_ten_zpow hthr, nearestEven_ten_zpow hscale, ecode_eq j⟩

/-! ### The thresholds strictly increase with the bucket (10_state.md R12) -/

/-- The thresholds fall from row to row. -/
abbrev DispatchRom.Falling (rom : DispatchRom) : Prop := rom.rows.toList.Pairwise fun r r' => r'.thr < r.thr

theorem dispatchContents_falling : dispatchContents.Falling := by
  decide

theorem thr_lt_bound : ∀ j : Fin 31, dispatchContents.rows[j].thr < dispatchContents.bound := by
  decide

theorem DispatchRom.Falling.thr_lt {rom : DispatchRom} (h : rom.Falling) {i j : Fin 31} (hij : i < j) :
    rom.rows[j].thr < rom.rows[i].thr := by
  have hlt := List.pairwise_iff_getElem.mp h i.val j.val (by simp) (by simp) hij
  simpa using hlt

theorem thr?_strictMono {d d' : Int} {t t' : Bits64} (hd : d < d') (ht : dispatchContents.thr? d = some t)
    (ht' : dispatchContents.thr? d' = some t') : t < t' := by
  obtain ⟨rfl, -⟩ | ⟨j, rfl, rfl⟩ := thr?_some ht <;> obtain ⟨rfl, rfl⟩ | ⟨j', rfl, rfl⟩ := thr?_some ht'
  · exact absurd hd (lt_irrefl _)
  · unfold decadeOf at hd
    omega
  · exact thr_lt_bound j
  · refine dispatchContents_falling.thr_lt (Fin.lt_def.mpr ?_)
    unfold decadeOf at hd
    omega

theorem thr?_mono {d d' : Int} {t t' : Bits64} (hd : d ≤ d') (ht : dispatchContents.thr? d = some t)
    (ht' : dispatchContents.thr? d' = some t') : t ≤ t' := by
  obtain hlt | rfl := lt_or_eq_of_le hd
  · exact BitVec.le_of_lt (thr?_strictMono hlt ht ht')
  · obtain rfl := Option.some.inj (ht.symm.trans ht')
    exact BitVec.le_refl _

/-- A magnitude lies in at most one bucket. -/
theorem bucket_unique {a lo hi lo' hi' : Bits64} {d d' : Int} (hlo : dispatchContents.thr? d = some lo)
    (hhi : dispatchContents.thr? (d + 1) = some hi) (hlo' : dispatchContents.thr? d' = some lo')
    (hhi' : dispatchContents.thr? (d' + 1) = some hi') (h : lo ≤ a ∧ a < hi) (h' : lo' ≤ a ∧ a < hi') : d' = d := by
  obtain ⟨hle, hlt⟩ := h
  obtain ⟨hle', hlt'⟩ := h'
  obtain hd | hd | hd := lt_trichotomy d' d
  · have hstep := thr?_mono (show d' + 1 ≤ d by omega) hhi' hlo
    exact absurd (lt_of_pattern_lt_of_le hlt' hstep) (BitVec.not_lt.mpr hle)
  · exact hd
  · have hstep := thr?_mono (show d + 1 ≤ d' by omega) hhi hlo'
    exact absurd (lt_of_pattern_lt_of_le hlt hstep) (BitVec.not_lt.mpr hle')

/-! ### The downward tests select the bucket around a magnitude (40_encode.md R54) -/

/-- The first of the downward tests that a magnitude in a bucket meets is that bucket's. -/
theorem first_test_met {j : Fin 31} {a hi : Bits64} (hhi : dispatchContents.thr? (decadeOf j + 1) = some hi)
    (hlt : a < hi) {i : Fin 31} (hij : i < j) : ¬ dispatchContents.rows[i].thr ≤ a := by
  have hdecade : decadeOf j + 1 ≤ decadeOf i := by
    have hij := Fin.lt_def.mp hij
    unfold decadeOf
    omega
  exact BitVec.not_le.mpr
    (lt_of_pattern_lt_of_le hlt (thr?_mono hdecade hhi (thr?_of_row? (row?_decadeOf dispatchContents i))))

theorem selectBucket_of_bucket {d : Int} {row : DispatchRow} {a hi : Bits64}
    (hrow : dispatchContents.row? d = some row) (hhi : dispatchContents.thr? (d + 1) = some hi) (hle : row.thr ≤ a)
    (hlt : a < hi) : selectBucket dispatchContents a = some row := by
  obtain ⟨j, rfl, rfl⟩ := row?_some hrow
  refine List.find?_eq_some_iff_getElem.mpr ⟨decide_eq_true hle, j.val, by simp, by simp, fun i hij => ?_⟩
  simpa using first_test_met hhi hlt (i := ⟨i, hij.trans j.isLt⟩) hij

/-- Settles O21: above the least threshold the tests select some row, whose bucket is around the magnitude; since the
thresholds increase, no other bucket is. -/
theorem bucketTestsSelectTheUniqueBucket : Obligations.BucketTestsSelectTheUniqueBucket := by
  intro a hlow hhigh
  cases hsel : selectBucket dispatchContents a with
  | none => exact absurd (selectBucket_loaded_none_iff.mp hsel) (BitVec.not_lt.mpr hlow)
  | some row =>
    obtain ⟨j, hi, hrow, hhi, hle, hlt⟩ := selectBucket_bounds (BitVec.not_le.mpr hhigh) hsel
    refine ⟨decadeOf j, row, hi, hrow, hhi, hle, hlt, rfl, fun d' lo' hi' _ _ hlo' hhi' hle' hlt' => ?_⟩
    exact bucket_unique (thr?_of_row? hrow) hhi hlo' hhi' ⟨hle, hlt⟩ ⟨hle', hlt'⟩

/-! ### Binary search (40_encode.md R65) -/

/-- Where the test fails before a place and holds from there on, the first row that meets it is the one there. -/
theorem getElem?_eq_find?_of_split {rows : List DispatchRow} {a : Bits64} {n : Nat}
    (hbefore : ∀ (i : Nat) (h : i < rows.length), i < n → ¬ rows[i].thr ≤ a)
    (hfrom : ∀ (i : Nat) (h : i < rows.length), n ≤ i → rows[i].thr ≤ a) :
    rows[n]? = rows.find? fun row => row.thr ≤ a := by
  symm
  by_cases hn : n < rows.length
  · rw [List.getElem?_eq_getElem hn, List.find?_eq_some_iff_getElem]
    refine ⟨decide_eq_true (hfrom n hn le_rfl), n, hn, rfl, fun i hi => ?_⟩
    simpa using hbefore i (hi.trans hn) hi
  · rw [List.getElem?_eq_none (not_lt.mp hn), List.find?_eq_none]
    intro row hrow
    obtain ⟨i, hi, rfl⟩ := List.getElem_of_mem hrow
    simpa using hbefore i hi (by omega)

/-- With the rows before `lo` failing the test and those from `hi` on meeting it, enough halvings find the first row that
meets it. -/
theorem searchRows_eq_find? {rows : List DispatchRow} (hfall : rows.Pairwise fun r r' => r'.thr < r.thr) (a : Bits64)
    {fuel lo hi : Nat} (hlohi : lo ≤ hi) (hlen : hi ≤ rows.length) (hfuel : hi - lo < 2 ^ fuel)
    (hbefore : ∀ (i : Nat) (h : i < rows.length), i < lo → ¬ rows[i].thr ≤ a)
    (hfrom : ∀ (i : Nat) (h : i < rows.length), hi ≤ i → rows[i].thr ≤ a) :
    searchRows rows a fuel lo hi = rows.find? fun row => row.thr ≤ a := by
  induction fuel generalizing lo hi with
  | zero =>
    obtain rfl : lo = hi := by omega
    exact getElem?_eq_find?_of_split hbefore hfrom
  | succ fuel ih =>
    rw [searchRows]
    by_cases hlt : lo < hi
    · have hmid : (lo + hi) / 2 < rows.length := by omega
      simp only [if_pos hlt, List.getElem?_eq_getElem hmid]
      split
      · next hmet =>
        refine ih (by omega) (by omega) (by omega) hbefore fun i h hi => ?_
        obtain heq | hgt := eq_or_lt_of_le hi
        · exact heq ▸ hmet
        · exact BitVec.le_trans (BitVec.le_of_lt (List.pairwise_iff_getElem.mp hfall _ _ hmid h hgt)) hmet
      · next hfailed =>
        refine ih (by omega) hlen (by omega) (fun i h hi => ?_) hfrom
        obtain heq | hbelow := eq_or_lt_of_le (Nat.le_of_lt_succ hi)
        · exact heq ▸ hfailed
        · exact fun hmet => hfailed
            (BitVec.le_trans (BitVec.le_of_lt (List.pairwise_iff_getElem.mp hfall _ _ h hmid hbelow)) hmet)
    · obtain rfl : lo = hi := by omega
      rw [if_neg hlt]
      exact getElem?_eq_find?_of_split hbefore hfrom

/-- Settles O27: 5 halvings leave nothing of 31 rows, and each halving keeps the first row that meets the test. -/
theorem binarySearchSelectsAlike : Obligations.BinarySearchSelectsAlike := by
  refine ⟨dispatchContents_falling, fun rom a hfall => ?_⟩
  have hlen : rom.rows.toList.length = Config.bucketCount := rom.rows.length_toList
  exact searchRows_eq_find? hfall a (Nat.zero_le _) hlen.ge (by decide) (fun i _ hi => absurd hi (Nat.not_lt_zero i))
    (fun i h hi => absurd h (by omega))

/-! ### Floating-point comparisons (40_encode.md R65) -/

/-- The bound and every threshold are nonnegative numbers. -/
theorem thresholds_nonneg : (signBit dispatchContents.bound = false ∧ isNaN dispatchContents.bound = false) ∧
    ∀ row ∈ dispatchContents.rows.toList, signBit row.thr = false ∧ isNaN row.thr = false := by
  decide

theorem find?_congr_of_mem {α : Type} {l : List α} {p q : α → Bool} (h : ∀ x ∈ l, p x = q x) :
    l.find? p = l.find? q := by
  induction l with
  | nil => rfl
  | cons x l ih =>
    rw [List.find?_cons, List.find?_cons, h x List.mem_cons_self, ih fun y hy => h y (List.mem_cons_of_mem x hy)]

/-- On a magnitude that is no NaN both kinds of comparison come to the same exit. -/
theorem classifyFloat_eq {a : Bits64} (ha : signBit a = false) (hnan : isNaN a = false) :
    classifyFloat dispatchContents a = classify dispatchContents a := by
  obtain ⟨⟨hb, hbnan⟩, hrows⟩ := thresholds_nonneg
  have hsel : dispatchContents.rows.toList.find? (fun row => geFloat a row.thr) = selectBucket dispatchContents a :=
    find?_congr_of_mem fun row hrow => geFloat_eq_decide ha (hrows row hrow).1 hnan (hrows row hrow).2
  have hge := geFloat_eq_decide ha hb hnan hbnan
  obtain ⟨h0, hexit⟩ | ⟨h0, hbound, hexit⟩ | ⟨row, h0, hbound, hrow, hexit⟩ | ⟨h0, hbound, hrow, hexit⟩ :=
    classify_cases dispatchContents a <;> rw [hexit]
  · simp only [classifyFloat, if_pos h0]
  · simp only [classifyFloat, if_neg h0, hge, decide_eq_true hbound, if_true]
  · simp only [classifyFloat, if_neg h0, hge, decide_eq_false hbound, Bool.false_eq_true, if_false, hsel, hrow]
  · simp only [classifyFloat, if_neg h0, hge, decide_eq_false hbound, Bool.false_eq_true, if_false, hsel, hrow]

/-- A NaN meets no floating-point test, so it falls through to the underflow exit. -/
theorem classifyFloat_of_isNaN (rom : DispatchRom) {a : Bits64} (hnan : isNaN a = true) :
    classifyFloat rom a = .underflow := by
  have h0 : a ≠ 0#64 := by
    rintro rfl
    exact absurd hnan (by decide)
  have hge (b : Bits64) : geFloat a b = false := by simp [geFloat, hnan]
  have hnone : rom.rows.toList.find? (fun _ => false) = none := List.find?_eq_none.mpr (by simp)
  simp only [classifyFloat, if_neg h0, hge, Bool.false_eq_true, if_false, hnone]

/-- A range error is answered with the word 0x0000 and the status 0 (60_exceptions.md R90). -/
theorem encodeResult_of_isRangeError {x : Bits64} (h : IsRangeError x) :
    encodeResult dispatchContents x = (0x0000#16, false) := by
  have hok := (classify_loaded_ok_eq_false_iff x).mpr h
  simp only [encodeResult, packedForExit_of_not_ok hok, hok]

theorem isNaN_absBits (x : Bits64) : isNaN (absBits x) = isNaN x := by
  rw [Bool.eq_iff_iff, isNaN_iff, isNaN_iff, toNat_absBits, Nat.mod_mod]

/-- Settles O26: bit order is numeric order on all but the NaNs, and on a NaN one way overflows and the other
underflows, with the same outputs. -/
theorem floatComparisonEncodesAlike : Obligations.FloatComparisonEncodesAlike := by
  intro x
  cases hnan : isNaN x with
  | false =>
    simp only [encodeResultFloat, encodeResult, classifyFloat_eq (signBit_absBits x) ((isNaN_absBits x).trans hnan)]
  | true =>
    rw [encodeResult_of_isRangeError (isRangeError_of_not_finite (not_finite_of_isInf_or_isNaN (.inr hnan)))]
    simp only [encodeResultFloat, classifyFloat_of_isNaN _ ((isNaN_absBits x).trans hnan), packedForExit, EncodeExit.ok]

/-! ### The number of threshold comparisons (70_reset_and_hazards.md R105) -/

/-- The tests made are those up to the first that is met, or all. -/
theorem bucketTests_eq (a : Bits64) (rows : List DispatchRow) :
    bucketTests a rows = min (rows.findIdx (fun row => row.thr ≤ a) + 1) rows.length := by
  induction rows with
  | nil => rfl
  | cons row rest ih =>
    rw [bucketTests, List.findIdx_cons, List.length_cons]
    by_cases h : row.thr ≤ a
    · simp [h]
    · simp [h, ih]

theorem thresholdComparisons_of_test {rom : DispatchRom} {x : Bits64} (h0 : absBits x ≠ 0#64)
    (h : ¬ rom.bound ≤ absBits x) :
    thresholdComparisons rom x = bucketTests (absBits x) rom.rows.toList + 1 := by
  simp only [thresholdComparisons, if_neg h0, if_neg h]

theorem bucketTests_le (rom : DispatchRom) (a : Bits64) : bucketTests a rom.rows.toList ≤ 31 := by
  rw [bucketTests_eq, Vector.length_toList]
  exact min_le_right _ _

/-- When no row is selected, all 31 tests were made. -/
theorem bucketTests_of_none {rom : DispatchRom} {a : Bits64} (h : selectBucket rom a = none) :
    bucketTests a rom.rows.toList = 31 := by
  have hall : rom.rows.toList.findIdx (fun row => row.thr ≤ a) = 31 := by
    rw [List.findIdx_eq_length_of_false fun row hrow => decide_eq_false (selectBucket_none.mp h row hrow),
      Vector.length_toList]
  rw [bucketTests_eq, hall, Vector.length_toList]
  rfl

/-- In row `j`'s bucket, `j + 1` tests are made. -/
theorem bucketTests_of_bucket {j : Fin 31} {a hi : Bits64} (hhi : dispatchContents.thr? (decadeOf j + 1) = some hi)
    (hle : dispatchContents.rows[j].thr ≤ a) (hlt : a < hi) :
    bucketTests a dispatchContents.rows.toList = j.val + 1 := by
  have hfirst : dispatchContents.rows.toList.findIdx (fun row => row.thr ≤ a) = j.val := by
    refine (List.findIdx_eq (by simp)).mpr ⟨by simpa using hle, fun i hij => ?_⟩
    simpa using first_test_met hhi hlt (i := ⟨i, hij.trans j.isLt⟩) hij
  have hj := j.isLt
  rw [bucketTests_eq, hfirst, Vector.length_toList]
  exact min_eq_left hj

/-- What a row stands for: no two decades have the same one. -/
theorem row?_inj {d d' : Int} {row : DispatchRow} (h : dispatchContents.row? d = some row)
    (h' : dispatchContents.row? d' = some row) : d = d' := by
  obtain hlt | heq | hgt := lt_trichotomy d d'
  · exact absurd (thr?_strictMono hlt (thr?_of_row? h) (thr?_of_row? h')) (BitVec.lt_irrefl _)
  · exact heq
  · exact absurd (thr?_strictMono hgt (thr?_of_row? h') (thr?_of_row? h)) (BitVec.lt_irrefl _)

/-- Settles O28: the exit says how many tests were made before it: none, the bound's, those of all rows, or those of the
rows from bucket 15 down to the one selected. -/
theorem thresholdComparisonsFollowTheExit : Obligations.ThresholdComparisonsFollowTheExit := by
  refine ⟨fun rom x => ?_, fun x d row hrow hexit => ?_⟩
  · obtain ⟨h0, hexit⟩ | ⟨h0, hbound, hexit⟩ | ⟨row, h0, hbound, hrow, hexit⟩ | ⟨h0, hbound, hrow, hexit⟩ :=
      classify_cases rom (absBits x)
    · rw [hexit]
      simp [thresholdComparisons, h0]
    · simp [hexit, thresholdComparisons, h0, hbound]
    · have hle := bucketTests_le rom (absBits x)
      simp [hexit, thresholdComparisons_of_test h0 hbound, Nat.lt_succ_of_le hle]
    · simp [hexit, thresholdComparisons_of_test h0 hbound, bucketTests_of_none hrow]
  · obtain ⟨-, h⟩ | ⟨-, -, h⟩ | ⟨row', h0, hbound, hsel, h⟩ | ⟨-, -, -, h⟩ :=
      classify_cases dispatchContents (absBits x)
    · simp [h] at hexit
    · simp [h] at hexit
    · rw [h] at hexit
      obtain rfl := EncodeExit.bucket.inj hexit
      obtain ⟨j, hi, hj, hhi, hle, hlt⟩ := selectBucket_bounds hbound hsel
      obtain rfl := row?_inj hrow hj
      rw [row?_decadeOf] at hj
      obtain rfl := Option.some.inj hj
      rw [thresholdComparisons_of_test h0 hbound, bucketTests_of_bucket hhi hle hlt]
      unfold decadeOf
      push_cast
      ring
    · simp [h] at hexit

/-! ### Operands that fail, and the least that succeeds (40_encode.md R55, R63) -/

theorem exec_encode_of_isRangeError {s : State} (hs : s.RomsLoaded) {x : Bits64} (h : IsRangeError x) :
    exec (.encode x) s = .next { s with completed := s.completed ++ [.encoded x 0x0000#16 false] } := by
  rw [exec_encode_of_loaded hs, encodeResult_of_isRangeError h]

theorem absBits_lt_of_isSubnormal {x : Bits64} (h : isSubnormal x = true) :
    0#64 < absBits x ∧ absBits x < 0x3CD203AF9EE75616#64 := by
  rw [isSubnormal, Bool.and_eq_true, beq_iff_eq, bne_iff_ne, expField_eq, fracField_eq] at h
  simp only [BitVec.lt_def, toNat_absBits, BitVec.toNat_ofNat]
  omega

theorem isRangeError_of_lt {x : Bits64} (hpos : 0#64 < absBits x) (h : absBits x < 0x3CD203AF9EE75616#64) :
    IsRangeError x :=
  ⟨by bv_omega, .inr h⟩

/-- An operand in a bucket takes that bucket's exit. -/
theorem classify_of_bucket {d : Int} {row : DispatchRow} {a hi : Bits64} (hrow : dispatchContents.row? d = some row)
    (hhi : dispatchContents.thr? (d + 1) = some hi) (hle : row.thr ≤ a) (hlt : a < hi) :
    classify dispatchContents a = .bucket row := by
  obtain ⟨j, rfl, rfl⟩ := row?_some hrow
  have hleast := least_threshold.2 _ (Vector.mem_toList_iff.mpr (Vector.getElem_mem j.isLt))
  have h0 : a ≠ 0#64 := by
    rintro rfl
    exact absurd (BitVec.le_trans hleast hle) (by decide)
  have hbound : hi ≤ dispatchContents.bound := by
    obtain ⟨-, rfl⟩ | ⟨i, -, rfl⟩ := thr?_some hhi
    · exact BitVec.le_refl _
    · exact BitVec.le_of_lt (thr_lt_bound i)
  exact classify_bucket h0 (BitVec.not_le.mpr (lt_of_pattern_lt_of_le hlt hbound))
    (selectBucket_of_bucket hrow hhi hle hlt)

/-- Settles O18: a magnitude below the least threshold is a range error; the least threshold lies in its own bucket. -/
theorem encodeUnderflowFails : Obligations.EncodeUnderflowFails := by
  refine fun s x hs => ⟨fun hpos hlt => exec_encode_of_isRangeError hs (isRangeError_of_lt hpos hlt),
    absBits_lt_of_isSubnormal, fun h => ?_⟩
  have hrow := row?_decadeOf dispatchContents 30
  have hhi := thr?_above_succ dispatchContents 29
  have hle : dispatchContents.rows[(30 : Fin 31)].thr ≤ absBits x := by
    rw [h]
    decide
  have hlt : absBits x < dispatchContents.rows[(29 : Fin 31)].thr := by
    rw [h]
    decide
  have hexit : classify s.dispatch (absBits x) = .bucket dispatchContents.rows[(30 : Fin 31)] := by
    rw [hs.dispatch_eq]
    exact classify_of_bucket hrow hhi hle hlt
  refine ⟨_, exec_encode_of_classify hexit, ?_, ?_⟩
  · rw [packedForExit, exponentCode_pack]
    rfl
  · rw [hs.dispatch_eq, selectBucket_of_bucket hrow hhi hle hlt]
    exact hrow.symm

/-- Settles O19: infinities and NaNs lie above the bound, subnormals below the least threshold. -/
theorem encodeOfInfinityNaNSubnormalFails : Obligations.EncodeOfInfinityNaNSubnormalFails := by
  intro s x hs h
  refine exec_encode_of_isRangeError hs ?_
  simp only [Bool.or_eq_true] at h
  obtain hspecial | hsub := h
  · exact isRangeError_of_not_finite (not_finite_of_isInf_or_isNaN hspecial)
  · obtain ⟨hpos, hlt⟩ := absBits_lt_of_isSubnormal hsub
    exact isRangeError_of_lt hpos hlt

/-! ### The sign of the operand (40_encode.md R61) -/

theorem absBits_negate (x : Bits64) : absBits (negate x) = absBits x := by
  apply BitVec.eq_of_toNat_eq
  rw [toNat_absBits, toNat_absBits, toNat_negate_mod]

/-- The value sign is bit 5 of a word. -/
theorem pack_not_sign (m : BitVec 10) (s : Bool) (c : BitVec 5) : pack m (!s) c = pack m s c ^^^ 0x0020#16 := by
  have hbit : ∀ i < 16, (0x0020#16).getLsbD i = decide (i = 5) := by decide
  refine BitVec.eq_of_getLsbD_eq fun i hi => ?_
  rw [BitVec.getLsbD_xor, getLsbD_pack _ _ _ hi, getLsbD_pack _ _ _ hi, hbit i hi]
  by_cases hcode : i < 5
  · simp [hcode, show i ≠ 5 by omega]
  · by_cases hsign : i = 5
    · simp [hsign]
    · simp [hcode, hsign]

/-- The word of an exit for the negated operand: bit 5 flips in a bucket, and nothing otherwise. -/
theorem packedForExit_negate (exit : EncodeExit) (x : Bits64) : packedForExit exit (negate x) =
    match exit with
    | .bucket _ => packedForExit exit x ^^^ 0x0020#16
    | _ => 0x0000#16 := by
  cases exit with
  | zero => rfl
  | overflow => rfl
  | bucket row => simp only [packedForExit, absBits_negate, signBit_negate, pack_not_sign]
  | underflow => rfl

/-- Settles O24: the exit depends on the magnitude alone, and the sign enters the word as bit 5 alone. -/
theorem encodeIsSignIndependent : Obligations.EncodeIsSignIndependent := by
  intro s x hs
  have hok : (encodeResult dispatchContents (negate x)).2 = (encodeResult dispatchContents x).2 := by
    simp only [encodeResult, absBits_negate]
  refine ⟨_, _, _, exec_encode_of_loaded hs x, hok ▸ exec_encode_of_loaded hs (negate x), fun h0 hsuccess => ?_,
    fun hfail => ⟨packedForExit_of_not_ok hfail x, packedForExit_of_not_ok (hok.trans hfail) (negate x)⟩⟩
  simp only [encodeResult, absBits_negate, packedForExit_negate] at hsuccess ⊢
  obtain ⟨hzero, -⟩ | ⟨-, -, hexit⟩ | ⟨row, -, -, -, hexit⟩ | ⟨-, -, -, hexit⟩ :=
    classify_cases dispatchContents (absBits x)
  · exact absurd hzero h0
  · simp [hexit, EncodeExit.ok] at hsuccess
  · rw [hexit]
  · simp [hexit, EncodeExit.ok] at hsuccess

end Sys2Proof.Machine

/-! Proofs about words and DECODE: the exponent codes, the table index, and the decoded value as a rounded product
(30_encoding.md R38, R39; 41_decode.md R73 to R78). -/

namespace Sys2Proof.Machine

/-! ### The signed index of a code (30_encoding.md R37, R38) -/

/-- The signed index an exponent code stands for: bit 4 is the sign, bits 3:0 the magnitude. -/
def codeIndex (c : BitVec 5) : Int :=
  if c.getLsbD 4 then -((c.extractLsb' 0 4).toNat : Int) else (c.extractLsb' 0 4).toNat

theorem signedIndex_eq (p : Packed) : signedIndex p = codeIndex (exponentCode p) := by
  have hsign : (exponentCode p).getLsbD 4 = p.getLsbD 4 := by simp [exponentCode]
  have hlow : (exponentCode p).extractLsb' 0 4 = p.extractLsb' 0 4 := by
    ext i hi
    simp [exponentCode]
  rw [signedIndex, codeIndex, hsign, hlow, exponentIndex_eq_extract, exponentSign]

theorem tableIndex_eq (p : Packed) : ((tableIndex p).val : Int) = codeIndex (exponentCode p) + 15 := by
  rw [tableIndex_val, biasedIndex, signedIndex_eq]

theorem decodedExponent_eq (p : Packed) : decodedExponent p = codeIndex (exponentCode p) - 2 := by
  have h := tableIndex_eq p
  simp only [decodedExponent, Config.tableOffset]
  omega

theorem codeIndex_mem (c : BitVec 5) : -15 ≤ codeIndex c ∧ codeIndex c ≤ 15 := by
  have h : (c.extractLsb' 0 4).toNat < 16 := BitVec.isLt _
  unfold codeIndex
  split <;> omega

theorem codeIndex_mem_table : ∀ c : BitVec 5,
    (c.toNat, codeIndex c, (codeIndex c + 15).toNat, codeIndex c - 2) ∈ exponentCodeTable := by
  decide

theorem bucket_of_code : ∀ row ∈ exponentCodeTable, row.1 ≠ 16 →
    (dispatchContents.row? row.2.1).map (fun r => r.ecode.toNat) = some row.1 := by
  decide

theorem ecode_ne_sixteen : ∀ r ∈ dispatchContents.rows.toList, r.ecode ≠ 16#5 := by
  decide

/-- Settles O15: what the decoder makes of a word's code is a function of those 5 bits, which is tabulated. -/
theorem exponentCodesReadAsTabled : Obligations.ExponentCodesReadAsTabled := by
  refine ⟨rfl, fun p => ?_, bucket_of_code, ecode_ne_sixteen⟩
  have hmem := codeIndex_mem_table (exponentCode p)
  have htable : (tableIndex p).val = (codeIndex (exponentCode p) + 15).toNat := by
    have h := tableIndex_eq p
    omega
  rwa [signedIndex_eq, htable, decodedExponent_eq]

/-! ### The mask of the table index (41_decode.md R74) -/

theorem decodeResultUnmasked_eq (rom : MultRom) (p : Packed) : decodeResultUnmasked rom p = decodeResult rom p := by
  have hindex : (biasedIndex p).toNat = (tableIndex p).val := by
    have h := tableIndex_val p
    omega
  rw [decodeResultUnmasked, decodeResult, hindex, List.getD_eq_getElem _ _ (by simp)]
  simp

/-- Settles O35: the index lies in 0..30, where the mask is the identity and entry 31 is not. -/
theorem tableIndexMaskChangesNothing : Obligations.TableIndexMaskChangesNothing := by
  intro rom p
  obtain ⟨hlow, hhigh⟩ := biasedIndex_mem p
  refine ⟨hlow, hhigh, tableIndex_val p, decodeResultUnmasked_eq rom p, fun rom' hrom => ?_⟩
  have hle := tableIndex_le p
  rw [decodeResult, decodeResult, hrom (tableIndex p) (by omega)]

/-! ### Rounding of a value at or beside a binary64 value -/

section
variable {r : ℚ} {v c : Bits64} (h : NearestEven r v) (hc : isFinite c = true)
include h hc

/-- A binary64 value at most the number is at most its rounding. -/
theorem le_f64_of_nearestEven (hle : f64 c ≤ r) : f64 c ≤ f64 v := by
  by_contra hlt
  have hnear := h.nearest c hc
  rw [abs_of_nonpos (sub_nonpos.mpr hle), abs_of_nonpos (by linarith)] at hnear
  linarith

theorem f64_le_of_nearestEven (hle : r ≤ f64 c) : f64 v ≤ f64 c := by
  by_contra hlt
  have hnear := h.nearest c hc
  rw [abs_of_nonneg (sub_nonneg.mpr hle), abs_of_nonneg (by linarith)] at hnear
  linarith

/-- A number that a pattern stands for is rounded to itself. -/
theorem f64_eq_of_nearestEven (heq : f64 c = r) : f64 v = r :=
  heq ▸ le_antisymm (f64_le_of_nearestEven h hc heq.ge) (le_f64_of_nearestEven h hc heq.le)

end

/-- Numbers up to `2^200` are far below the end of the range. -/
theorem lt_rnLimit_of_le {r : ℚ} (h : r ≤ 2 ^ 200) : r < rnLimit := by
  have hpow : (2 : ℚ) ^ 200 ≤ 2 ^ 970 := pow_le_pow_right₀ one_le_two (by decide)
  have hpos : (0 : ℚ) < 2 ^ 970 := by positivity
  calc r ≤ 1 * 2 ^ 970 := (h.trans hpow).trans_eq (one_mul _).symm
    _ < (2 ^ 54 - 1) * 2 ^ 970 := mul_lt_mul_of_pos_right (by norm_num) hpos

/-! ### DECODE as a rounded product (41_decode.md R77) -/

theorem abs_f64_signedMagnitude (p : Packed) : |f64 (signedMagnitude p)| = magnitude p := by
  rw [signedMagnitude_eq, abs_f64_rn_one _ ((magnitude_lt p).trans (by decide))]

theorem f64_signedMagnitude (p : Packed) : f64 (signedMagnitude p) = signFactor (valueSign p) * magnitude p := by
  rw [f64_eq_signFactor_mul, signBit_signedMagnitude, abs_f64_signedMagnitude]

theorem signBit_decodeResult (p : Packed) : signBit (decodeResult multContents p) = valueSign p := by
  obtain ⟨hfin, hsign, -⟩ := multiplier_bounds p
  rw [decodeResult, signBit_fmul (isFinite_signedMagnitude p) hfin, signBit_signedMagnitude, hsign, Bool.xor_false]

/-- The exact product of a word is in range. -/
theorem abs_f64_mul_multiplier_lt (p : Packed) :
    |f64 (signedMagnitude p) * f64 multContents[tableIndex p]| < rnLimit := by
  obtain ⟨-, -, hle⟩ := multiplier_bounds p
  refine lt_rnLimit_of_le ?_
  rw [abs_mul]
  calc |f64 (signedMagnitude p)| * |f64 multContents[tableIndex p]|
      ≤ 2 ^ 11 * 10 ^ 13 := mul_le_mul (abs_f64_signedMagnitude_le p) hle (abs_nonneg _) (by norm_num)
    _ ≤ 2 ^ 200 := by norm_num

theorem nearestEven_decodeResult (p : Packed) :
    NearestEven (signFactor (valueSign p) * magnitude p * f64 multContents[tableIndex p])
      (decodeResult multContents p) := by
  rw [← f64_signedMagnitude]
  exact nearestEven_fmul (isFinite_signedMagnitude p) (multiplier_bounds p).1 (abs_f64_mul_multiplier_lt p)

/-- Settles O30: the signed magnitude is exact, and the product with the table entry is rounded once. -/
theorem decodeMeetsRealArithmetic : Obligations.DecodeMeetsRealArithmetic := by
  intro s p hs
  refine ⟨tableIndex p, _, exec_decode_of_loaded hs p, ?_, ?_, signBit_decodeResult p⟩
  · rw [tableIndex_val, biasedIndex, signedIndex, exponentIndex_eq_extract]
    rfl
  · rw [hs.mult_eq, ← magnitude_eq_extract]
    exact nearestEven_decodeResult p

/-! ### The magnitude of a decoded word -/

theorem absBits_of_nonneg {b : Bits64} (h : signBit b = false) : absBits b = b := by
  apply BitVec.eq_of_toNat_eq
  rw [toNat_absBits, Nat.mod_eq_of_lt (signBit_eq_false_iff.mp h)]

theorem absBits_of_neg {b : Bits64} (h : signBit b = true) : absBits b = negate b := by
  rw [← absBits_negate, absBits_of_nonneg (by rw [signBit_negate, h]; rfl)]

/-- Rounding to nearest even of a number with a sign is that of its magnitude. -/
theorem nearestEven_absBits {s : Bool} {r : ℚ} {v : Bits64} (hs : signBit v = s)
    (h : NearestEven (signFactor s * r) v) : NearestEven r (absBits v) := by
  cases s with
  | false => rwa [signFactor_false, one_mul, ← absBits_of_nonneg hs] at h
  | true =>
    have hneg := h.negate
    rwa [signFactor_true, neg_one_mul, neg_neg, ← absBits_of_neg hs] at hneg

theorem nearestEven_absBits_decodeResult (p : Packed) :
    NearestEven (magnitude p * f64 multContents[tableIndex p]) (absBits (decodeResult multContents p)) := by
  refine nearestEven_absBits (signBit_decodeResult p) ?_
  rw [← mul_assoc]
  exact nearestEven_decodeResult p

/-! ### The range of the nonzero words (41_decode.md R78) -/

theorem f64_eq_natCast {b : Bits64} {n : Nat} (hs : signBit b = false) (h : magNum b = n * magDen b) : f64 b = n := by
  have hden : (magDen b : ℚ) ≠ 0 := by exact_mod_cast (magDen_pos b).ne'
  rw [f64_of_nonneg hs, h, Nat.cast_mul, mul_div_cancel_right₀ _ hden]

/-- The entries of the multiplier ROM lie between its first and its last. -/
theorem multContents_le : ∀ k : Fin 32, k.val < 31 →
    0x3C670EF54646D497#64 ≤ multContents[k] ∧ multContents[k] ≤ 0x42A2309CE5400000#64 := by
  decide

theorem f64_multContents_mem (p : Packed) : f64 0x3C670EF54646D497#64 ≤ f64 multContents[tableIndex p] ∧
    f64 multContents[tableIndex p] ≤ 10 ^ 13 := by
  obtain ⟨-, hsign, -⟩ := multiplier_bounds p
  obtain ⟨hlow, hhigh⟩ := multContents_le (tableIndex p) (Nat.lt_succ_of_le (tableIndex_le p))
  have htop : f64 0x42A2309CE5400000#64 = (10 ^ 13 : Nat) := f64_eq_natCast (by decide) (by decide)
  rw [Nat.cast_pow, Nat.cast_ofNat] at htop
  exact ⟨(le_iff_f64_le hsign (by decide)).mp hlow, htop ▸ (le_iff_f64_le (by decide) hsign).mp hhigh⟩

theorem absBits_decodeResult_mem {p : Packed} (hp : magnitude p ≠ 0) :
    0x3C670EF54646D497#64 ≤ absBits (decodeResult multContents p) ∧
    absBits (decodeResult multContents p) ≤ 0x43422C10BE06B000#64 := by
  have hround := nearestEven_absBits_decodeResult p
  have hsign := signBit_absBits (decodeResult multContents p)
  obtain ⟨hlow, hhigh⟩ := f64_multContents_mem p
  have hmult : 0 ≤ f64 multContents[tableIndex p] := f64_nonneg (multiplier_bounds p).2.1
  have hone : (1 : ℚ) ≤ magnitude p := by exact_mod_cast Nat.pos_of_ne_zero hp
  have hmax : (magnitude p : ℚ) ≤ 1023 := by exact_mod_cast Nat.le_of_lt_succ (magnitude_lt p)
  have htop : f64 0x43422C10BE06B000#64 = (1023 * 10 ^ 13 : Nat) := f64_eq_natCast (by decide) (by decide)
  constructor
  · rw [le_iff_f64_le hsign (by decide)]
    exact le_f64_of_nearestEven hround (by decide) (hlow.trans (le_mul_of_one_le_left hmult hone))
  · rw [le_iff_f64_le (by decide) hsign]
    refine f64_le_of_nearestEven hround (by decide) ?_
    rw [htop, Nat.cast_mul, Nat.cast_pow]
    exact mul_le_mul hmax hhigh hmult (by norm_num)

theorem expField_eq_absBits (y : Bits64) : expField y = (absBits y).toNat / 2 ^ 52 := by
  rw [expField_eq, toNat_absBits]

/-- Settles O32: rounding keeps a product between two binary64 values, here the products of the least and of the largest
magnitude and entry. -/
theorem nonzeroWordsDecodeToNormalRange : Obligations.NonzeroWordsDecodeToNormalRange := by
  refine ⟨fun s p hs hp => ?_, by decide, by decide⟩
  obtain ⟨hlow, hhigh⟩ := absBits_decodeResult_mem hp
  have hlow' := BitVec.le_def.mp hlow
  have hhigh' := BitVec.le_def.mp hhigh
  simp only [BitVec.toNat_ofNat] at hlow' hhigh'
  refine ⟨_, exec_decode_of_loaded hs p, hlow, hhigh, ?_, ?_⟩
  · rw [expField_eq_absBits]
    omega
  · rw [expField_eq_absBits]
    omega

/-! ### Exponent code 16 (30_encoding.md R39) -/

/-- Clearing the low five bits of a word clears its exponent code and nothing else. -/
theorem pack_and_clear (m : BitVec 10) (s : Bool) (c : BitVec 5) : pack m s c &&& 0xFFE0#16 = pack m s 0#5 := by
  have hmask : ∀ i < 16, (0xFFE0#16).getLsbD i = decide (5 ≤ i) := by decide
  refine BitVec.eq_of_getLsbD_eq fun i hi => ?_
  rw [BitVec.getLsbD_and, getLsbD_pack _ _ _ hi, getLsbD_pack _ _ _ hi, hmask i hi]
  by_cases hcode : i < 5
  · simp [hcode]
  · simp [hcode, not_lt.mp hcode]

/-- What DECODE reads of a word: its magnitude, its value sign and the index of its code. -/
theorem decodeResult_congr (rom : MultRom) {p q : Packed} (hm : magnitude p = magnitude q)
    (hs : valueSign p = valueSign q) (hc : codeIndex (exponentCode p) = codeIndex (exponentCode q)) :
    decodeResult rom p = decodeResult rom q := by
  have hindex : tableIndex p = tableIndex q := by
    have hp := tableIndex_eq p
    have hq := tableIndex_eq q
    exact Fin.ext (by omega)
  simp only [decodeResult, signedMagnitude, hindex, hm, hs]

theorem decodeResult_clear_of_sixteen (rom : MultRom) {p : Packed} (h : exponentCode p = 16#5) :
    decodeResult rom (p &&& 0xFFE0#16) = decodeResult rom p := by
  have hclear : p &&& 0xFFE0#16 = pack (BitVec.ofNat 10 (magnitude p)) (valueSign p) 0#5 := by
    rw [← pack_and_clear _ _ (exponentCode p), pack_fields]
  have hmag : (BitVec.ofNat 10 (magnitude p)).toNat = magnitude p := by
    rw [BitVec.toNat_ofNat, Nat.mod_eq_of_lt (magnitude_lt p)]
  rw [hclear]
  refine decodeResult_congr rom ?_ (valueSign_pack _ _ _) ?_
  · rw [magnitude_pack, hmag]
  · rw [exponentCode_pack, h]
    decide

theorem exponentCode_encodeResult_ne_sixteen (x : Bits64) :
    exponentCode (encodeResult dispatchContents x).1 ≠ 16#5 := by
  simp only [encodeResult]
  obtain ⟨-, hexit⟩ | ⟨-, -, hexit⟩ | ⟨row, -, -, hrow, hexit⟩ | ⟨-, -, -, hexit⟩ :=
    classify_cases dispatchContents (absBits x)
  · rw [hexit, packedForExit]
    decide
  · rw [hexit, packedForExit]
    decide
  · rw [hexit, packedForExit, exponentCode_pack]
    exact ecode_ne_sixteen row (selectBucket_some hrow).1
  · rw [hexit, packedForExit]
    decide

/-- Settles O34: codes 16 and 0 have the same index, and no row of the dispatch ROM has code 16. -/
theorem codeSixteenDecodesAsCodeZero : Obligations.CodeSixteenDecodesAsCodeZero := by
  refine ⟨fun s p h => ⟨decodeResult s.mult p, exec_eq_complete (.decode p) s, ?_⟩, fun s x hs =>
    ⟨_, _, exec_encode_of_loaded hs x, exponentCode_encodeResult_ne_sixteen x⟩⟩
  rw [← decodeResult_clear_of_sixteen s.mult h]
  exact exec_eq_complete (.decode _) s

end Sys2Proof.Machine

/-! Proofs about ENCODE in a bucket: the scaled value lies in [100, 1000), so the word carries the rounded magnitude
itself; and the invariant (40_encode.md R56 to R62; 10_state.md R14). -/

namespace Sys2Proof.Machine

/-! ### Rounding half up on the real numbers (40_encode.md R57) -/

theorem realRoundHalfUp_eq_floor (r : ℚ) : realRoundHalfUp r = ⌊r + 1 / 2⌋ := by
  have hle := Int.floor_le r
  have hlt := Int.lt_floor_add_one r
  symm
  rw [realRoundHalfUp, Int.floor_eq_iff]
  split
  · next hup =>
    push_cast
    constructor <;> linarith
  · next hdown =>
    push_cast
    constructor <;> linarith

theorem le_realRoundHalfUp_iff {m : Int} {r : ℚ} : m ≤ realRoundHalfUp r ↔ (m : ℚ) ≤ r + 1 / 2 := by
  rw [realRoundHalfUp_eq_floor, Int.le_floor]

theorem realRoundHalfUp_le_iff {m : Int} {r : ℚ} : realRoundHalfUp r ≤ m ↔ r + 1 / 2 < m + 1 := by
  rw [realRoundHalfUp_eq_floor, Int.floor_le_iff]

theorem realRoundHalfUp_eq_of_abs_lt {m : Int} {r : ℚ} (h : |r - m| < 1 / 2) : realRoundHalfUp r = m := by
  obtain ⟨hlow, hhigh⟩ := abs_lt.mp h
  exact le_antisymm (realRoundHalfUp_le_iff.mpr (by linarith)) (le_realRoundHalfUp_iff.mpr (by linarith))

/-! ### Rounding beside the middle of two neighbouring values -/

/-- The pattern below a positive one. -/
def predBits (b : Bits64) : Bits64 := BitVec.ofNat 64 (b.toNat - 1)

theorem toNat_predBits (b : Bits64) : (predBits b).toNat = b.toNat - 1 := by
  have h := b.isLt
  rw [predBits, BitVec.toNat_ofNat, Nat.mod_eq_of_lt (by omega)]

theorem le_predBits_iff {a b : Bits64} (hb : b ≠ 0#64) : a ≤ predBits b ↔ a < b := by
  rw [BitVec.le_def, BitVec.lt_def, toNat_predBits]
  bv_omega

theorem signBit_predBits {b : Bits64} (h : signBit b = false) : signBit (predBits b) = false := by
  rw [signBit_eq_false_iff] at h ⊢
  rw [toNat_predBits]
  omega

theorem isFinite_predBits {b : Bits64} (hs : signBit b = false) (h : isFinite b = true) :
    isFinite (predBits b) = true :=
  isFinite_of_le hs h (by rw [BitVec.le_def, toNat_predBits]; omega)

section
variable {r : ℚ} {v c : Bits64} (h : NearestEven r v) (hv : signBit v = false) (hc : signBit c = false)
  (hfin : isFinite c = true) (h0 : c ≠ 0#64)
include h hv hc hfin h0

/-- A number above the middle of a value and the one below it is rounded to no less than that value. -/
theorem le_f64_of_middle_lt (hmid : (f64 (predBits c) + f64 c) / 2 < r) : f64 c ≤ f64 v := by
  by_contra hlt
  rw [← le_iff_f64_le hv hc, BitVec.not_le, ← le_predBits_iff h0, le_iff_f64_le (signBit_predBits hc) hv] at hlt
  have hstep : f64 (predBits c) < f64 c :=
    f64_lt_of_lt hc ((le_predBits_iff h0).mp (BitVec.le_refl _))
  have hnear := h.nearest c hfin
  rw [abs_of_nonpos (a := f64 v - r) (by linarith)] at hnear
  have hcloser : |f64 c - r| < r - f64 v := abs_lt.mpr ⟨by linarith, by linarith⟩
  linarith

/-- A number below the middle is rounded to no more than the value below. -/
theorem f64_le_of_lt_middle (hmid : r < (f64 (predBits c) + f64 c) / 2) : f64 v ≤ f64 (predBits c) := by
  by_contra hgt
  rw [← le_iff_f64_le (signBit_predBits hc) hv, le_predBits_iff h0, BitVec.not_lt, le_iff_f64_le hv hc] at hgt
  have hstep : f64 (predBits c) < f64 c :=
    f64_lt_of_lt hc ((le_predBits_iff h0).mp (BitVec.le_refl _))
  have hnear := h.nearest (predBits c) (isFinite_predBits hc hfin)
  rw [abs_of_nonneg (a := f64 v - r) (by linarith)] at hnear
  have hcloser : |f64 (predBits c) - r| < f64 v - r := abs_lt.mpr ⟨by linarith, by linarith⟩
  linarith

end

/-! ### The scaled value in a bucket (40_encode.md R62) -/

/-- An exact product against a ratio of two natural numbers, said without division. -/
theorem div_lt_abs_f64_mul {n k : Nat} {a b : Bits64} (hk : 0 < k)
    (h : n * (magDen a * magDen b) < k * (magNum a * magNum b)) : (n : ℚ) / k < |f64 a| * |f64 b| := by
  have hden : (0 : ℚ) < (magDen a * magDen b : Nat) := by exact_mod_cast Nat.mul_pos (magDen_pos a) (magDen_pos b)
  rw [← magNum_mul_div_magDen_mul, div_lt_div_iff₀ (by exact_mod_cast hk) hden, mul_comm ((_ * _ : Nat) : ℚ)]
  exact_mod_cast h

theorem abs_f64_mul_lt_div {n k : Nat} {a b : Bits64} (hk : 0 < k)
    (h : k * (magNum a * magNum b) < n * (magDen a * magDen b)) : |f64 a| * |f64 b| < (n : ℚ) / k := by
  have hden : (0 : ℚ) < (magDen a * magDen b : Nat) := by exact_mod_cast Nat.mul_pos (magDen_pos a) (magDen_pos b)
  rw [← magNum_mul_div_magDen_mul, div_lt_div_iff₀ hden (by exact_mod_cast hk), mul_comm ((_ * _ : Nat) : ℚ)]
  exact_mod_cast h

/-- What holds of the top row under the overflow bound, and of every other row under the threshold of the row before it,
holds of every bucket. -/
theorem forall_bucket {P : DispatchRow → Bits64 → Prop}
    (top : P dispatchContents.rows[(0 : Fin 31)] dispatchContents.bound)
    (succ : ∀ i : Fin 30, P dispatchContents.rows[i.succ] dispatchContents.rows[i.castSucc].thr) {d : Int}
    {row : DispatchRow} {hi : Bits64} (hrow : dispatchContents.row? d = some row)
    (hhi : dispatchContents.thr? (d + 1) = some hi) : P row hi := by
  obtain ⟨j, rfl, rfl⟩ := row?_some hrow
  cases j using Fin.cases with
  | zero =>
    rw [thr?_above_top] at hhi
    exact Option.some.inj hhi ▸ top
  | succ i =>
    rw [thr?_above_succ] at hhi
    exact Option.some.inj hhi ▸ succ i

/-- A bucket's scale takes its threshold above the middle of 100 and the value below, and its last magnitude below the
middle of 1000 and the value below: a test in natural numbers. -/
abbrev ScalesIntoDecade (row : DispatchRow) (hi : Bits64) : Prop :=
  isFinite row.scale = true ∧ signBit row.scale = false ∧ isFinite hi = true ∧ signBit hi = false ∧ hi ≠ 0#64 ∧
  (100 * 2 ^ 47 - 1) * (magDen row.thr * magDen row.scale) < 2 ^ 47 * (magNum row.thr * magNum row.scale) ∧
  2 ^ 44 * (magNum (predBits hi) * magNum row.scale) <
    (1000 * 2 ^ 44 - 1) * (magDen (predBits hi) * magDen row.scale)

theorem scalesIntoDecade_of_bucket {d : Int} {row : DispatchRow} {hi : Bits64}
    (hrow : dispatchContents.row? d = some row) (hhi : dispatchContents.thr? (d + 1) = some hi) :
    ScalesIntoDecade row hi := by
  refine forall_bucket ?_ ?_ hrow hhi
  · decide
  · decide

theorem f64_hundred : f64 0x4059000000000000#64 = (100 : Nat) := f64_eq_natCast (by decide) (by decide)

theorem f64_thousand : f64 0x408F400000000000#64 = (1000 : Nat) := f64_eq_natCast (by decide) (by decide)

/-- The value below 100 is `2^-46` below it. -/
theorem f64_pred_hundred : f64 (predBits 0x4059000000000000#64) = 100 - 1 / 2 ^ 46 := by
  have hn : magNum (predBits 0x4059000000000000#64) = 100 * 2 ^ 46 - 1 := by decide
  have hd : magDen (predBits 0x4059000000000000#64) = 2 ^ 46 := by decide
  rw [f64_of_nonneg (by decide), hn, hd]
  norm_num

/-- The value below 1000 is `2^-43` below it. -/
theorem f64_pred_thousand : f64 (predBits 0x408F400000000000#64) = 1000 - 1 / 2 ^ 43 := by
  have hn : magNum (predBits 0x408F400000000000#64) = 1000 * 2 ^ 43 - 1 := by decide
  have hd : magDen (predBits 0x408F400000000000#64) = 2 ^ 43 := by decide
  rw [f64_of_nonneg (by decide), hn, hd]
  norm_num

section
variable {a : Bits64} {d : Int} {row : DispatchRow} {hi : Bits64} (hrow : dispatchContents.row? d = some row)
  (hhi : dispatchContents.thr? (d + 1) = some hi)
include hrow hhi

theorem signBit_of_bucket (hlt : a < hi) : signBit a = false := by
  obtain ⟨-, -, -, hsign, -⟩ := scalesIntoDecade_of_bucket hrow hhi
  rw [signBit_eq_false_iff] at hsign ⊢
  exact (BitVec.lt_def.mp hlt).trans hsign

theorem isFinite_of_bucket (hlt : a < hi) : isFinite a = true := by
  obtain ⟨-, -, hfin, hsign, -⟩ := scalesIntoDecade_of_bucket hrow hhi
  exact isFinite_of_le hsign hfin (BitVec.le_of_lt hlt)

theorem signBit_scaled (hlt : a < hi) : signBit (fmul a row.scale) = false := by
  obtain ⟨hfin, hsign, -⟩ := scalesIntoDecade_of_bucket hrow hhi
  rw [signBit_fmul (isFinite_of_bucket hrow hhi hlt) hfin, signBit_of_bucket hrow hhi hlt, hsign]
  rfl

variable (hle : row.thr ≤ a) (hlt : a < hi)
include hle hlt

/-- The exact product of a magnitude and its bucket's scale. -/
theorem product_mem_of_bucket :
    100 - 1 / 2 ^ 47 < f64 a * f64 row.scale ∧ f64 a * f64 row.scale < 1000 - 1 / 2 ^ 44 := by
  obtain ⟨-, hsign, hhifin, hhisign, hhi0, hlow, hhigh⟩ := scalesIntoDecade_of_bucket hrow hhi
  have ha := signBit_of_bucket hrow hhi hlt
  have hscale := abs_nonneg (f64 row.scale)
  have hle' := abs_f64_le_of_le ha hle
  have hlt' := abs_f64_le_of_le (signBit_predBits hhisign) ((le_predBits_iff hhi0).mpr hlt)
  have hlow' := div_lt_abs_f64_mul (by decide) hlow
  have hhigh' := abs_f64_mul_lt_div (by decide) hhigh
  rw [← abs_f64_of_nonneg ha, ← abs_f64_of_nonneg hsign]
  refine ⟨lt_of_lt_of_le ?_ (mul_le_mul_of_nonneg_right hle' hscale),
    lt_of_le_of_lt (mul_le_mul_of_nonneg_right hlt' hscale) ?_⟩
  · norm_num at hlow' ⊢
    exact hlow'
  · norm_num at hhigh' ⊢
    exact hhigh'

theorem nearestEven_scaled : NearestEven (f64 a * f64 row.scale) (fmul a row.scale) := by
  obtain ⟨hfin, -, -⟩ := scalesIntoDecade_of_bucket hrow hhi
  obtain ⟨hlow, hhigh⟩ := product_mem_of_bucket hrow hhi hle hlt
  refine nearestEven_fmul (isFinite_of_bucket hrow hhi hlt) hfin (lt_rnLimit_of_le ?_)
  rw [abs_of_nonneg (by linarith)]
  linarith

theorem hundred_le_scaled : 100 ≤ f64 (fmul a row.scale) := by
  have h := le_f64_of_middle_lt (c := 0x4059000000000000#64) (nearestEven_scaled hrow hhi hle hlt)
    (signBit_scaled hrow hhi hlt) (by decide) (by decide) (by decide) ?_
  · rw [f64_hundred] at h
    exact_mod_cast h
  · rw [f64_pred_hundred, f64_hundred]
    norm_num
    linarith [(product_mem_of_bucket hrow hhi hle hlt).1]

theorem scaled_lt_thousand : f64 (fmul a row.scale) < 1000 := by
  have h := f64_le_of_lt_middle (c := 0x408F400000000000#64) (nearestEven_scaled hrow hhi hle hlt)
    (signBit_scaled hrow hhi hlt) (by decide) (by decide) (by decide) ?_
  · rw [f64_pred_thousand] at h
    linarith
  · rw [f64_pred_thousand, f64_thousand]
    norm_num
    linarith [(product_mem_of_bucket hrow hhi hle hlt).2]

theorem quantize_eq_realRoundHalfUp : quantize row a = realRoundHalfUp (f64 (fmul a row.scale)) :=
  roundHalfUp_eq (nearestEven_scaled hrow hhi hle hlt).finite

theorem quantize_mem_of_bucket : 100 ≤ quantize row a ∧ quantize row a ≤ 1000 := by
  have hlow := hundred_le_scaled hrow hhi hle hlt
  have hhigh := scaled_lt_thousand hrow hhi hle hlt
  rw [quantize_eq_realRoundHalfUp hrow hhi hle hlt, le_realRoundHalfUp_iff, realRoundHalfUp_le_iff]
  push_cast
  constructor <;> linarith

/-- The magnitude field holds the rounded magnitude itself. -/
theorem toNat_ofInt_quantize : ((BitVec.ofInt 10 (quantize row a)).toNat : Int) = quantize row a := by
  obtain ⟨hlow, hhigh⟩ := quantize_mem_of_bucket hrow hhi hle hlt
  rw [BitVec.toNat_ofInt]
  omega

end

/-- Settles O23: the ends of a bucket scale to beside 100 and 1000, on the inner side of the middles there, and rounding
half up reaches 1000 from 999.5. -/
theorem scaledMagnitudeStaysInRange : Obligations.ScaledMagnitudeStaysInRange := by
  intro a d row hi hrow hhi hle hlt
  obtain ⟨hmin, hmax⟩ := quantize_mem_of_bucket hrow hhi hle hlt
  refine ⟨hundred_le_scaled hrow hhi hle hlt, scaled_lt_thousand hrow hhi hle hlt, hmin, hmax, ?_⟩
  have htop : quantize row a = 1000 ↔ 1000 ≤ quantize row a := ⟨ge_of_eq, le_antisymm hmax⟩
  rw [htop, quantize_eq_realRoundHalfUp hrow hhi hle hlt, le_realRoundHalfUp_iff]
  push_cast
  constructor <;> intro h <;> linarith

/-! ### The word ENCODE emits in a bucket (40_encode.md R56 to R59) -/

theorem pack_eq_append (m : BitVec 10) (s : Bool) (c : BitVec 5) : pack m s c = m ++ BitVec.ofBool s ++ c := by
  refine BitVec.eq_of_getLsbD_eq fun i hi => ?_
  rw [getLsbD_pack _ _ _ hi]
  simp only [BitVec.getLsbD_append, BitVec.getLsbD_ofBool]
  by_cases hcode : i < 5
  · simp [hcode]
  · by_cases hsign : i = 5
    · simp [hsign]
    · simp [hcode, hsign, show ¬ i - 5 < 1 by omega, show i - 5 - 1 = i - 6 by omega]

theorem encodeResult_of_bucket {x : Bits64} {d : Int} {row : DispatchRow} {hi : Bits64}
    (hrow : dispatchContents.row? d = some row) (hhi : dispatchContents.thr? (d + 1) = some hi)
    (hle : row.thr ≤ absBits x) (hlt : absBits x < hi) :
    encodeResult dispatchContents x =
      (pack (BitVec.ofInt 10 (quantize row (absBits x))) (signBit x) row.ecode, true) := by
  simp only [encodeResult, classify_of_bucket hrow hhi hle hlt, packedForExit, EncodeExit.ok]

/-- Settles O22: in its bucket an operand takes that bucket's exit, and the ten magnitude bits hold the rounded magnitude,
which is at most 1000. -/
theorem encodeMeetsRealArithmetic : Obligations.EncodeMeetsRealArithmetic := by
  intro s x d row hi hs hrow hhi hle hlt
  rw [hs.dispatch_eq] at hrow hhi
  refine ⟨_, BitVec.ofInt 10 (quantize row (absBits x)), row.ecode, ?_, nearestEven_scaled hrow hhi hle hlt, ?_, ?_⟩
  · rw [exec_encode_of_loaded hs, encodeResult_of_bucket hrow hhi hle hlt, pack_eq_append]
    rfl
  · rw [toNat_ofInt_quantize hrow hhi hle hlt, quantize_eq_realRoundHalfUp hrow hhi hle hlt]
  · obtain ⟨j, rfl, rfl⟩ := row?_some hrow
    exact ecode_eq j

/-! ### The invariant (10_state.md R14) -/

/-- What an ENCODE returns: a canonical word with success, or 0x0000 with failure on a range error. -/
theorem completionOf_encode_legal (x : Bits64) :
    (completionOf dispatchContents multContents (.encode x)).Legal := by
  have hok := classify_loaded_ok_eq_false_iff x
  simp only [completionOf, encodeResult]
  obtain ⟨-, hexit⟩ | ⟨-, -, hexit⟩ | ⟨row, -, hbound, hsel, hexit⟩ | ⟨-, -, -, hexit⟩ :=
    classify_cases dispatchContents (absBits x) <;> rw [hexit] at hok ⊢
  · exact ⟨fun h => Bool.noConfusion (hok.mpr h), .inl rfl⟩
  · exact ⟨hok.mp rfl, rfl⟩
  · refine ⟨fun h => Bool.noConfusion (hok.mpr h), .inr ?_⟩
    obtain ⟨j, hi, hrow, hhi, hle, hlt⟩ := selectBucket_bounds hbound hsel
    have hmem := quantize_mem_of_bucket hrow hhi hle hlt
    have hnat := toNat_ofInt_quantize hrow hhi hle hlt
    rw [packedForExit, magnitude_pack, exponentCode_pack]
    exact ⟨by omega, by omega, ecode_ne_sixteen row (selectBucket_some hsel).1⟩
  · exact ⟨hok.mp rfl, rfl⟩

theorem absBits_decodeResult_eq_zero_iff (p : Packed) :
    absBits (decodeResult multContents p) = 0#64 ↔ magnitude p = 0 := by
  constructor
  · intro h
    by_contra hp
    have hlow := (absBits_decodeResult_mem hp).1
    rw [h] at hlow
    exact absurd hlow (by decide)
  · intro h
    rw [decodeResult_of_magnitude_zero h]
    cases valueSign p <;> decide

theorem completionOf_legal (i : Instr) : (completionOf dispatchContents multContents i).Legal := by
  cases i with
  | encode x => exact completionOf_encode_legal x
  | decode p => exact ⟨isFinite_decodeResult p, signBit_decodeResult p, absBits_decodeResult_eq_zero_iff p⟩

/-- Settles O44: a step records at most one result, that of an operation on the loaded ROMs, which is legal. -/
theorem stepKeepsTheInvariant : Obligations.StepKeepsTheInvariant := by
  intro s t hs hstep
  obtain ⟨-, rfl⟩ | ⟨r, rest, -, rfl⟩ := step_cases hstep
  · exact hs
  · refine ⟨⟨hs.loaded.dispatch_eq, hs.loaded.mult_eq⟩, fun c hc => ?_⟩
    obtain hold | hnew := List.mem_append.mp hc
    · exact hs.legal c hold
    · rw [List.mem_singleton.mp hnew, hs.loaded.dispatch_eq, hs.loaded.mult_eq]
      exact completionOf_legal _

end Sys2Proof.Machine

/-! How near rounded values are to powers of ten and their multiples, and the rounded magnitude of a value near three
digits (10_state.md R11, R13; 40_encode.md R56). -/

namespace Sys2Proof.Machine

/-! ### The relative error of one rounding -/

/-- A rounded number is within `2^-53` of the number, relative to it. The range is that of every number here. -/
theorem abs_f64_sub_le_of_nearestEven {r : ℚ} {v : Bits64} (h : NearestEven r v) (hlow : 1 / 10 ^ 20 ≤ r)
    (hhigh : r ≤ 10 ^ 20) : |f64 v - r| ≤ r / 2 ^ 53 := by
  have hr : ((r.num.toNat : Nat) : ℚ) / r.den = r := by
    have hpos : 0 ≤ r.num := Rat.num_nonneg.mpr (le_trans (by positivity) hlow)
    rw [← Int.cast_natCast r.num.toNat, Int.toNat_of_nonneg hpos, Rat.num_div_den]
  have hlt : ((r.num.toNat : Nat) : ℚ) / r.den < 2 ^ (1023 : Int) := by
    rw [hr]
    exact (hhigh.trans (by norm_num)).trans_lt two_pow_200_lt
  have hsub : (2 : ℚ) ^ (-1022 : Int) ≤ r := by
    refine le_trans ?_ hlow
    calc (2 : ℚ) ^ (-1022 : Int) ≤ 2 ^ (-80 : Int) := zpow_le_zpow_right₀ one_le_two (by decide)
      _ ≤ 1 / 10 ^ 20 := by norm_num
  have hrn := abs_f64_rn_sub_le false r.den_pos hlt
  rw [abs_f64_of_nonneg (signBit_withSign _ _), hr, max_eq_left hsub] at hrn
  exact (h.nearest _ (isFinite_rn false r.den_pos hlt)).trans hrn

/-- The value is within `2^-50` of the number, relative to it: room for a few roundings. -/
def Near (r : ℚ) (v : Bits64) : Prop := |f64 v - r| ≤ r / 2 ^ 50

theorem Near.bounds {r : ℚ} {v : Bits64} (h : Near r v) : r - r / 2 ^ 50 ≤ f64 v ∧ f64 v ≤ r + r / 2 ^ 50 := by
  obtain ⟨hlow, hhigh⟩ := abs_le.mp h
  constructor <;> linarith

theorem near_of_nearestEven {r : ℚ} {v : Bits64} (h : NearestEven r v) (hlow : 1 / 10 ^ 20 ≤ r)
    (hhigh : r ≤ 10 ^ 20) : Near r v := by
  have hpos : 0 < r := lt_of_lt_of_le (by positivity) hlow
  exact (abs_f64_sub_le_of_nearestEven h hlow hhigh).trans
    (div_le_div_of_nonneg_left hpos.le (by norm_num) (by norm_num))

/-- Two roundings, of a factor and then of the product. -/
theorem near_of_nearestEven_mul {n t : ℚ} {b v : Bits64} (hb : NearestEven t b) (hv : NearestEven (n * f64 b) v)
    (hn : 1 ≤ n) (hlow : 1 / 10 ^ 17 ≤ t) (hhigh : n * t ≤ 10 ^ 18) : Near (n * t) v := by
  have ht : 0 < t := lt_of_lt_of_le (by positivity) hlow
  have hnt : t ≤ n * t := le_mul_of_one_le_left ht.le hn
  have hfactor := abs_f64_sub_le_of_nearestEven hb (by linarith) (by linarith)
  have hexact : |n * f64 b - n * t| ≤ n * t / 2 ^ 53 := by
    rw [← mul_sub, abs_mul, abs_of_pos (by linarith : 0 < n), mul_div_assoc]
    exact mul_le_mul_of_nonneg_left hfactor (by linarith)
  obtain ⟨hexactLow, hexactHigh⟩ := abs_le.mp hexact
  have hround := abs_f64_sub_le_of_nearestEven hv (by linarith) (by linarith)
  obtain ⟨hroundLow, hroundHigh⟩ := abs_le.mp hround
  exact abs_le.mpr ⟨by linarith, by linarith⟩

/-- Values near numbers that are a thousandth apart are in the order of the numbers. -/
theorem f64_lt_of_near {r r' : ℚ} {a b : Bits64} (ha : Near r a) (hb : Near r' b) (hr : 0 < r)
    (h : 1001 * r ≤ 1000 * r') : f64 a < f64 b := by
  have hup := ha.bounds.2
  have hdown := hb.bounds.1
  linarith

/-! ### The constants of the ROMs are near their powers of ten -/

theorem ten_zpow_mem {e : Int} (hlow : -20 ≤ e) (hhigh : e ≤ 20) :
    (1 : ℚ) / 10 ^ 20 ≤ 10 ^ e ∧ (10 : ℚ) ^ e ≤ 10 ^ 20 :=
  ⟨by simpa using zpow_le_zpow_right₀ (a := (10 : ℚ)) (by norm_num) hlow, zpow_natCast (10 : ℚ) 20 ▸ zpow_le_zpow_right₀ (by norm_num) hhigh⟩

theorem decade_of_row? {d : Int} {row : DispatchRow} (h : dispatchContents.row? d = some row) : -15 ≤ d ∧ d ≤ 15 := by
  obtain ⟨j, rfl, -⟩ := row?_some h
  have hj : j.val < 31 := j.isLt
  unfold decadeOf
  omega

theorem decade_of_thr? {d : Int} {t : Bits64} (h : dispatchContents.thr? d = some t) : -15 ≤ d ∧ d ≤ 16 := by
  obtain ⟨rfl, -⟩ | ⟨j, rfl, -⟩ := thr?_some h
  · decide
  · have hj : j.val < 31 := j.isLt
    unfold decadeOf
    omega

theorem near_thr {d : Int} {t : Bits64} (h : dispatchContents.thr? d = some t) : Near (10 ^ d) t := by
  obtain ⟨hlow, hhigh⟩ := decade_of_thr? h
  obtain ⟨hmin, hmax⟩ := ten_zpow_mem (e := d) (by omega) (by omega)
  refine near_of_nearestEven ?_ hmin hmax
  obtain ⟨rfl, rfl⟩ | ⟨j, rfl, rfl⟩ := thr?_some h
  · exact nearestEven_ten_zpow bound_isStrictlyNearest
  · exact nearestEven_ten_zpow (dispatchContents_isStrictlyNearest j).1

theorem abs_f64_scale_sub_le {d : Int} {row : DispatchRow} (h : dispatchContents.row? d = some row) :
    |f64 row.scale - 10 ^ (2 - d)| ≤ 10 ^ (2 - d) / 2 ^ 53 := by
  obtain ⟨hlow, hhigh⟩ := decade_of_row? h
  obtain ⟨hmin, hmax⟩ := ten_zpow_mem (e := 2 - d) (by omega) (by omega)
  obtain ⟨j, rfl, rfl⟩ := row?_some h
  exact abs_f64_sub_le_of_nearestEven (nearestEven_ten_zpow (dispatchContents_isStrictlyNearest j).2) hmin hmax

theorem nearestEven_multiplier (p : Packed) :
    NearestEven (10 ^ (codeIndex (exponentCode p) - 2)) multContents[tableIndex p] := by
  have hindex := tableIndex_eq p
  have hle := tableIndex_le p
  have hpower : codeIndex (exponentCode p) - 2 = ((tableIndex p).val : Int) - 17 := by omega
  rw [hpower]
  exact nearestEven_ten_zpow (multContents_isStrictlyNearest _ (by omega))

theorem exists_bucket {d : Int} (hlow : -15 ≤ d) (hhigh : d ≤ 15) :
    ∃ row hi, dispatchContents.row? d = some row ∧ dispatchContents.thr? (d + 1) = some hi := by
  obtain ⟨j, rfl⟩ := exists_decadeOf hlow hhigh
  cases j using Fin.cases with
  | zero => exact ⟨_, _, row?_decadeOf _ _, thr?_above_top _⟩
  | succ i => exact ⟨_, _, row?_decadeOf _ _, thr?_above_succ _ i⟩

theorem ten_zpow_eq (d : Int) :
    (10 : ℚ) ^ d = 100 * 10 ^ (d - 2) ∧ (10 : ℚ) ^ (d + 1) = 1000 * 10 ^ (d - 2) := by
  have h (k : Int) : (10 : ℚ) ^ k * 10 ^ (d - 2) = 10 ^ (k + (d - 2)) := (zpow_add₀ (by norm_num) _ _).symm
  have h100 := h 2
  have h1000 := h 3
  rw [show 2 + (d - 2) = d by ring] at h100
  rw [show 3 + (d - 2) = d + 1 by ring] at h1000
  rw [← h100, ← h1000]
  norm_num

/-! ### The word of a magnitude near three digits (40_encode.md R56) -/

/-- The product of a number near `n` and one near 1 is near `n`. -/
theorem abs_mul_sub_le_of_near {n α β : ℚ} (hn0 : 0 ≤ n) (hn : n ≤ 1000) (hα : |α - n| ≤ n / 2 ^ 50)
    (hβ : |β - 1| ≤ 1 / 2 ^ 53) : |α * β - n| ≤ 1 / 8 := by
  have hβ2 : |β| ≤ 2 := by
    have h := abs_sub_abs_le_abs_sub β 1
    rw [abs_one] at h
    linarith
  calc |α * β - n| = |(α - n) * β + n * (β - 1)| := by ring_nf
    _ ≤ |α - n| * |β| + n * |β - 1| := by
        refine (abs_add_le _ _).trans_eq ?_
        rw [abs_mul, abs_mul, abs_of_nonneg hn0]
    _ ≤ n / 2 ^ 50 * 2 + n * (1 / 2 ^ 53) :=
        add_le_add (mul_le_mul hα hβ2 (abs_nonneg _) (by positivity)) (mul_le_mul_of_nonneg_left hβ hn0)
    _ ≤ 1 / 8 := by linarith

section
variable {a : Bits64} {d : Int} {row : DispatchRow} {hi : Bits64} (hrow : dispatchContents.row? d = some row)
  (hhi : dispatchContents.thr? (d + 1) = some hi) {n : Nat}
include hrow hhi

/-- A magnitude in a bucket and near `n · 10^(d-2)` is rounded to `n`. -/
theorem quantize_of_near (hle : row.thr ≤ a) (hlt : a < hi) (hn : n ≤ 1000) (hnear : Near (n * 10 ^ (d - 2)) a) :
    quantize row a = n := by
  obtain ⟨hlow, hhigh⟩ := product_mem_of_bucket hrow hhi hle hlt
  have hround := abs_f64_sub_le_of_nearestEven (nearestEven_scaled hrow hhi hle hlt)
    (le_trans (by norm_num) hlow.le) (by linarith)
  have hscale := abs_f64_scale_sub_le hrow
  have ht : (0 : ℚ) < 10 ^ (d - 2) := by positivity
  have hinv : (10 : ℚ) ^ (2 - d) = (10 ^ (d - 2))⁻¹ := by rw [← zpow_neg, neg_sub]
  have hn' : (n : ℚ) ≤ 1000 := by exact_mod_cast hn
  have hn0 : (0 : ℚ) ≤ n := Nat.cast_nonneg n
  rw [hinv] at hscale
  unfold Near at hnear
  generalize (10 : ℚ) ^ (d - 2) = t at *
  have hα : |f64 a / t - n| ≤ n / 2 ^ 50 := by
    rw [div_sub' ht.ne', abs_div, abs_of_pos ht, div_le_iff₀ ht, mul_comm t]
    linarith
  have hβ : |f64 row.scale * t - 1| ≤ 1 / 2 ^ 53 := by
    have h := mul_le_mul_of_nonneg_right hscale ht.le
    rwa [← abs_of_pos ht, ← abs_mul, abs_of_pos ht, sub_mul, inv_mul_cancel₀ ht.ne', div_mul_eq_mul_div,
      inv_mul_cancel₀ ht.ne'] at h
  have hproduct : f64 a * f64 row.scale = f64 a / t * (f64 row.scale * t) := by
    field_simp
  have herror : |f64 a * f64 row.scale - n| ≤ 1 / 8 := by
    rw [hproduct]
    exact abs_mul_sub_le_of_near hn0 hn' hα hβ
  rw [quantize_eq_realRoundHalfUp hrow hhi hle hlt]
  refine realRoundHalfUp_eq_of_abs_lt ?_
  obtain ⟨hround1, hround2⟩ := abs_le.mp hround
  obtain ⟨herror1, herror2⟩ := abs_le.mp herror
  rw [Int.cast_natCast]
  exact abs_lt.mpr ⟨by linarith, by linarith⟩

end

end Sys2Proof.Machine

/-! Proofs about the two operations together: what ENCODE makes of a decoded word, and which words it emits
(30_encoding.md R40; 41_decode.md R83). -/

namespace Sys2Proof.Machine

/-! ### Words made of their fields -/

theorem toNat_ofNat_ten {n : Nat} (h : n ≤ 1000) : (BitVec.ofNat 10 n).toNat = n := by
  rw [BitVec.toNat_ofNat, Nat.mod_eq_of_lt (by omega)]

/-- Two words of a magnitude and a code, one of each sign. -/
theorem eq_pack_either_sign_iff {p : Packed} (m : BitVec 10) (c : BitVec 5) :
    p = pack m false c ∨ p = pack m true c ↔ magnitude p = m.toNat ∧ exponentCode p = c := by
  constructor
  · rintro (rfl | rfl) <;> exact ⟨magnitude_pack _ _ _, exponentCode_pack _ _ _⟩
  · rintro ⟨hm, rfl⟩
    have hp := pack_fields p
    rw [hm, BitVec.ofNat_toNat, BitVec.setWidth_eq] at hp
    cases hs : valueSign p with
    | false => exact .inl (by rw [← hs, hp])
    | true => exact .inr (by rw [← hs, hp])

/-- The codes other than 16 are those of the rows, each that of its own decade. -/
theorem ecode_of_codeIndex : ∀ c : BitVec 5, c ≠ 16#5 →
    (dispatchContents.row? (codeIndex c)).map DispatchRow.ecode = some c := by
  decide

theorem codeIndex_ecode {d : Int} {row : DispatchRow} (h : dispatchContents.row? d = some row) :
    codeIndex row.ecode = d := by
  have hall : ∀ j : Fin 31, codeIndex dispatchContents.rows[j].ecode = decadeOf j := by decide
  obtain ⟨j, rfl, rfl⟩ := row?_some h
  exact hall j

theorem ecode_eq_of_row? {c : BitVec 5} (hc : c ≠ 16#5) {row : DispatchRow}
    (h : dispatchContents.row? (codeIndex c) = some row) : row.ecode = c := by
  have hmap := ecode_of_codeIndex c hc
  rw [h] at hmap
  exact Option.some.inj hmap

/-! ### An operand in a bucket and near three digits -/

/-- The word of an operand near `n · 10^(d-2)` in bucket `d`. -/
theorem encodeResult_of_near {x : Bits64} {d : Int} {row : DispatchRow} {hi : Bits64}
    (hrow : dispatchContents.row? d = some row) (hhi : dispatchContents.thr? (d + 1) = some hi)
    (hle : row.thr ≤ absBits x) (hlt : absBits x < hi) {n : Nat} (hn : n ≤ 1000)
    (hnear : Near (n * 10 ^ (d - 2)) (absBits x)) :
    encodeResult dispatchContents x = (pack (BitVec.ofNat 10 n) (signBit x) row.ecode, true) := by
  rw [encodeResult_of_bucket hrow hhi hle hlt, quantize_of_near hrow hhi hle hlt hn hnear, BitVec.ofInt_natCast]

theorem signBit_thr {d : Int} {t : Bits64} (h : dispatchContents.thr? d = some t) : signBit t = false := by
  have hall : ∀ j : Fin 31, signBit dispatchContents.rows[j].thr = false := by decide
  obtain ⟨-, rfl⟩ | ⟨j, -, rfl⟩ := thr?_some h
  · decide
  · exact hall j

theorem thr_le_of_near {r : ℚ} {x t : Bits64} {d : Int} (hr : 1001 * 10 ^ d ≤ 1000 * r)
    (ht : dispatchContents.thr? d = some t) (hnear : Near r (absBits x)) : t ≤ absBits x := by
  rw [le_iff_f64_le (signBit_absBits x) (signBit_thr ht)]
  exact (f64_lt_of_near (near_thr ht) hnear (by positivity) hr).le

theorem lt_thr_of_near {r : ℚ} {x t : Bits64} {d : Int} (hr0 : 0 < r) (hr : 1001 * r ≤ 1000 * 10 ^ d)
    (ht : dispatchContents.thr? d = some t) (hnear : Near r (absBits x)) : absBits x < t := by
  rw [lt_iff_f64_lt (signBit_thr ht) (signBit_absBits x)]
  exact f64_lt_of_near hnear (near_thr ht) hr0 hr

/-! ### What ENCODE makes of a decoded word (41_decode.md R83) -/

/-- The decoding of a word is near its magnitude times its power of ten. -/
theorem near_absBits_decodeResult {p : Packed} (hp : magnitude p ≠ 0) :
    Near (magnitude p * 10 ^ (codeIndex (exponentCode p) - 2)) (absBits (decodeResult multContents p)) := by
  obtain ⟨hlow, hhigh⟩ := codeIndex_mem (exponentCode p)
  have hone : (1 : ℚ) ≤ magnitude p := by exact_mod_cast Nat.pos_of_ne_zero hp
  have hmax : (magnitude p : ℚ) ≤ 10 ^ 4 := by
    exact_mod_cast (magnitude_lt p).le.trans (by decide)
  refine near_of_nearestEven_mul (nearestEven_multiplier p) (nearestEven_absBits_decodeResult p) hone ?_ ?_
  · simpa using zpow_le_zpow_right₀ (a := (10 : ℚ)) (by norm_num)
      (show (-17 : Int) ≤ codeIndex (exponentCode p) - 2 by omega)
  · have hpow : (10 : ℚ) ^ (codeIndex (exponentCode p) - 2) ≤ 10 ^ (14 : Int) :=
      zpow_le_zpow_right₀ (by norm_num) (by omega)
    calc (magnitude p : ℚ) * 10 ^ (codeIndex (exponentCode p) - 2)
        ≤ 10 ^ 4 * 10 ^ (14 : Int) := mul_le_mul hmax hpow (by positivity) (by norm_num)
      _ = 10 ^ 18 := by norm_num

/-- The bucket of a decoded word with magnitude 101..999 is the word's own, by its distance from the thresholds. -/
theorem decodeResult_mem_bucket {p : Packed} (hlow : 101 ≤ magnitude p) (hhigh : magnitude p ≤ 999) {row : DispatchRow}
    {hi : Bits64} (hrow : dispatchContents.row? (codeIndex (exponentCode p)) = some row)
    (hhi : dispatchContents.thr? (codeIndex (exponentCode p) + 1) = some hi) :
    row.thr ≤ absBits (decodeResult multContents p) ∧ absBits (decodeResult multContents p) < hi := by
  have hnear := near_absBits_decodeResult (p := p) (by omega)
  obtain ⟨hthr, hnext⟩ := ten_zpow_eq (codeIndex (exponentCode p))
  have ht : (0 : ℚ) < 10 ^ (codeIndex (exponentCode p) - 2) := by positivity
  have hlow' : (101 : ℚ) ≤ magnitude p := by exact_mod_cast hlow
  have hhigh' : (magnitude p : ℚ) ≤ 999 := by exact_mod_cast hhigh
  refine ⟨thr_le_of_near ?_ (thr?_of_row? hrow) hnear, lt_thr_of_near ?_ ?_ hhi hnear⟩
  · rw [hthr]
    nlinarith
  · positivity
  · rw [hnext]
    nlinarith

/-- A canonical word whose decoding lies in its own bucket comes back. -/
theorem encode_decodeResult_self {p : Packed} (hp : magnitude p ≠ 0) (hmax : magnitude p ≤ 1000)
    (hc : exponentCode p ≠ 16#5) {row : DispatchRow} {hi : Bits64}
    (hrow : dispatchContents.row? (codeIndex (exponentCode p)) = some row)
    (hhi : dispatchContents.thr? (codeIndex (exponentCode p) + 1) = some hi)
    (hle : row.thr ≤ absBits (decodeResult multContents p)) (hlt : absBits (decodeResult multContents p) < hi) :
    encodeResult dispatchContents (decodeResult multContents p) = (p, true) := by
  rw [encodeResult_of_near hrow hhi hle hlt hmax (near_absBits_decodeResult hp), signBit_decodeResult,
    ecode_eq_of_row? hc hrow, pack_fields]

/-- What a word that comes back in bucket `d` with magnitude `n` looks like. -/
abbrev ReturnsAs (p : Packed) (n : Nat) (d : Int) : Prop :=
  let r := encodeResult dispatchContents (decodeResult multContents p)
  r.2 = true ∧ magnitude r.1 = n ∧ valueSign r.1 = valueSign p ∧ signedIndex r.1 = d

theorem returnsAs_of_near {p : Packed} {n : Nat} {d : Int} {row : DispatchRow} {hi : Bits64}
    (hrow : dispatchContents.row? d = some row) (hhi : dispatchContents.thr? (d + 1) = some hi)
    (hle : row.thr ≤ absBits (decodeResult multContents p)) (hlt : absBits (decodeResult multContents p) < hi)
    (hn : n ≤ 1000) (hnear : Near (n * 10 ^ (d - 2)) (absBits (decodeResult multContents p))) : ReturnsAs p n d := by
  simp only [ReturnsAs, encodeResult_of_near hrow hhi hle hlt hn hnear, magnitude_pack, valueSign_pack, signedIndex_eq,
    exponentCode_pack, toNat_ofNat_ten hn, signBit_decodeResult, codeIndex_ecode hrow, and_self]

/-- Which decoded words with magnitude 100 reach the threshold of their bucket. -/
theorem thr_le_decodeResult_hundred : ∀ (s : Bool) (c : BitVec 5), c ≠ 16#5 →
    (dispatchContents.thr? (codeIndex c)).map (fun t => decide (t ≤ absBits (decodeResult multContents (pack 100#10 s c))))
      = some (decide (c ∉ [20#5, 21#5, 25#5])) := by
  decide

/-- Which decoded words with magnitude 1000 reach the next threshold. -/
theorem thr_le_decodeResult_thousand : ∀ (s : Bool) (c : BitVec 5), c ≠ 16#5 →
    (dispatchContents.thr? (codeIndex c + 1)).map
      (fun t => decide (t ≤ absBits (decodeResult multContents (pack 1000#10 s c)))) = some (decide (c ≠ 21#5)) := by
  decide

section
variable {p : Packed} (hc : exponentCode p ≠ 16#5)
include hc

theorem thr_le_of_magnitude_hundred (hm : magnitude p = 100) {t : Bits64}
    (ht : dispatchContents.thr? (codeIndex (exponentCode p)) = some t) :
    t ≤ absBits (decodeResult multContents p) ↔ exponentCode p ∉ [20#5, 21#5, 25#5] := by
  have h := thr_le_decodeResult_hundred (valueSign p) (exponentCode p) hc
  have hp := pack_fields p
  rw [hm] at hp
  rw [hp, ht, Option.map_some, Option.some.injEq, decide_eq_decide] at h
  exact h

theorem thr_le_of_magnitude_thousand (hm : magnitude p = 1000) {t : Bits64}
    (ht : dispatchContents.thr? (codeIndex (exponentCode p) + 1) = some t) :
    t ≤ absBits (decodeResult multContents p) ↔ exponentCode p ≠ 21#5 := by
  have h := thr_le_decodeResult_thousand (valueSign p) (exponentCode p) hc
  have hp := pack_fields p
  rw [hm] at hp
  rw [hp, ht, Option.map_some, Option.some.injEq, decide_eq_decide] at h
  exact h

/-- A word with magnitude 100: its decoding is near its bucket's threshold, which it reaches or not. -/
theorem decodeThenEncode_hundred (hm : magnitude p = 100) :
    if exponentCode p ∈ [20#5, 21#5, 25#5] then ReturnsAs p 1000 (signedIndex p - 1)
    else encodeResult dispatchContents (decodeResult multContents p) = (p, true) := by
  obtain ⟨hlow, hhigh⟩ := codeIndex_mem (exponentCode p)
  obtain ⟨row, hi, hrow, hhi⟩ := exists_bucket hlow hhigh
  have hnear := near_absBits_decodeResult (p := p) (by omega)
  obtain ⟨hthr, hnext⟩ := ten_zpow_eq (codeIndex (exponentCode p))
  have ht : (0 : ℚ) < 10 ^ (codeIndex (exponentCode p) - 2) := by positivity
  have hreach := thr_le_of_magnitude_hundred hc hm (thr?_of_row? hrow)
  rw [hm, Nat.cast_ofNat] at hnear
  split
  · next hmem =>
    have hlow' : -15 ≤ codeIndex (exponentCode p) - 1 := by
      have hall : ∀ c ∈ [20#5, 21#5, 25#5], -15 ≤ codeIndex c - 1 := by decide
      exact hall _ hmem
    obtain ⟨row', hi', hrow', hhi'⟩ := exists_bucket hlow' (by omega)
    obtain ⟨hthr', -⟩ := ten_zpow_eq (codeIndex (exponentCode p) - 1)
    have hten : (10 : ℚ) ^ (codeIndex (exponentCode p) - 2) = 10 * 10 ^ (codeIndex (exponentCode p) - 1 - 2) := by
      rw [← zpow_one_add₀ (by norm_num)]
      congr 1
      ring
    have hhi0 := hhi'
    rw [sub_add_cancel, thr?_of_row? hrow, Option.some.injEq] at hhi0
    rw [signedIndex_eq]
    refine returnsAs_of_near hrow' hhi' (thr_le_of_near ?_ (thr?_of_row? hrow') hnear) ?_ le_rfl ?_
    · rw [hthr', hten]
      linarith
    · rw [← hhi0, ← BitVec.not_le, hreach]
      exact not_not_intro hmem
    · convert hnear using 1
      rw [hten, Nat.cast_ofNat]
      ring
  · next hmem =>
    refine encode_decodeResult_self (by omega) (by omega) hc hrow hhi (hreach.mpr hmem) ?_
    refine lt_thr_of_near (by linarith) ?_ hhi hnear
    rw [hnext]
    linarith

/-- A word with magnitude 1000: its decoding is near the next threshold, which it reaches or not. -/
theorem decodeThenEncode_thousand (hm : magnitude p = 1000) :
    if exponentCode p = 15#5 then encodeResult dispatchContents (decodeResult multContents p) = (0x0000#16, false)
    else if exponentCode p = 21#5 then encodeResult dispatchContents (decodeResult multContents p) = (p, true)
    else ReturnsAs p 100 (signedIndex p + 1) := by
  obtain ⟨hlow, hhigh⟩ := codeIndex_mem (exponentCode p)
  obtain ⟨row, hi, hrow, hhi⟩ := exists_bucket hlow hhigh
  have hnear := near_absBits_decodeResult (p := p) (by omega)
  obtain ⟨hthr, hnext⟩ := ten_zpow_eq (codeIndex (exponentCode p))
  have ht : (0 : ℚ) < 10 ^ (codeIndex (exponentCode p) - 2) := by positivity
  have hreach := thr_le_of_magnitude_thousand hc hm hhi
  rw [hm, Nat.cast_ofNat] at hnear
  split
  · next htop =>
    have hbound : hi = 0x4341C37937E08000#64 := by
      rw [htop] at hhi
      exact (Option.some.inj hhi).symm
    have hover := hreach.mpr (by rw [htop]; decide)
    refine encodeResult_of_isRangeError ⟨?_, .inl (hbound ▸ hover)⟩
    rw [Ne, absBits_decodeResult_eq_zero_iff]
    omega
  split
  · next hself =>
    refine encode_decodeResult_self (by omega) (by omega) hc hrow hhi
      (thr_le_of_near ?_ (thr?_of_row? hrow) hnear) ?_
    · rw [hthr]
      linarith
    · rw [← BitVec.not_le, hreach]
      exact not_not_intro hself
  · next htop hself =>
    have hhigh' : codeIndex (exponentCode p) + 1 ≤ 15 := by
      have hall : ∀ c : BitVec 5, c ≠ 15#5 → codeIndex c + 1 ≤ 15 := by decide
      exact hall _ htop
    obtain ⟨row', hi', hrow', hhi'⟩ := exists_bucket (by omega) hhigh'
    obtain ⟨-, hnext'⟩ := ten_zpow_eq (codeIndex (exponentCode p) + 1)
    have hten : (10 : ℚ) ^ (codeIndex (exponentCode p) + 1 - 2) = 10 * 10 ^ (codeIndex (exponentCode p) - 2) := by
      rw [← zpow_one_add₀ (by norm_num)]
      congr 1
      ring
    have hhi0 := thr?_of_row? hrow'
    rw [hhi, Option.some.injEq] at hhi0
    rw [signedIndex_eq]
    refine returnsAs_of_near hrow' hhi' (hhi0 ▸ hreach.mpr hself) (lt_thr_of_near (by linarith) ?_ hhi' hnear)
      (by decide) ?_
    · rw [hnext', hten]
      linarith
    · convert hnear using 1
      rw [hten, Nat.cast_ofNat]
      ring

end

/-! ### The words named in 41_decode.md R83, by their fields -/

theorem overflowing_iff (p : Packed) :
    p = 0xFA0F#16 ∨ p = 0xFA2F#16 ↔ magnitude p = 1000 ∧ exponentCode p = 15#5 :=
  eq_pack_either_sign_iff 1000#10 15#5

theorem returning_thousand_iff (p : Packed) :
    p = 0xFA15#16 ∨ p = 0xFA35#16 ↔ magnitude p = 1000 ∧ exponentCode p = 21#5 :=
  eq_pack_either_sign_iff 1000#10 21#5

/-- Three alternatives and three more, taken in pairs. -/
theorem or_pairs {a b c a' b' c' : Prop} : a ∨ b ∨ c ∨ a' ∨ b' ∨ c' ↔ (a ∨ a') ∨ (b ∨ b') ∨ (c ∨ c') := by
  tauto

theorem falling_iff (p : Packed) : p ∈ [0x1914#16, 0x1915#16, 0x1919#16, 0x1934#16, 0x1935#16, 0x1939#16] ↔
    magnitude p = 100 ∧ exponentCode p ∈ [20#5, 21#5, 25#5] := by
  have h20 : p = 0x1914#16 ∨ p = 0x1934#16 ↔ magnitude p = 100 ∧ exponentCode p = 20#5 :=
    eq_pack_either_sign_iff 100#10 20#5
  have h21 : p = 0x1915#16 ∨ p = 0x1935#16 ↔ magnitude p = 100 ∧ exponentCode p = 21#5 :=
    eq_pack_either_sign_iff 100#10 21#5
  have h25 : p = 0x1919#16 ∨ p = 0x1939#16 ↔ magnitude p = 100 ∧ exponentCode p = 25#5 :=
    eq_pack_either_sign_iff 100#10 25#5
  simp only [List.mem_cons, List.not_mem_nil, or_false, and_or_left, ← h20, ← h21, ← h25]
  exact or_pairs

/-- Settles O36: the decoding of a word with three digits is so near them that it lies in the word's own bucket, but at
the ends of a bucket, where the 62 words with magnitude 100 and the 62 with 1000 are tested against the threshold. -/
theorem decodeThenEncodeReturns : Obligations.DecodeThenEncodeReturns := by
  rintro p (rfl | ⟨hmin, hmax, hc⟩)
  · decide
  have hstays : p ≠ 0xFA15#16 ∧ p ≠ 0xFA35#16 ↔ ¬ (magnitude p = 1000 ∧ exponentCode p = 21#5) := by
    rw [← returning_thousand_iff, not_or]
  simp only [overflowing_iff, falling_iff, hstays]
  obtain hm | hm | hm : magnitude p = 100 ∨ magnitude p = 1000 ∨ (101 ≤ magnitude p ∧ magnitude p ≤ 999) := by omega
  · have h := decodeThenEncode_hundred hc hm
    simpa [hm] using h
  · have h := decodeThenEncode_thousand hc hm
    simp only [hm, true_and]
    split
    · next htop => rwa [if_pos htop] at h
    · next htop =>
      rw [if_neg htop] at h
      rw [if_neg (fun h => absurd h.1 (by decide))]
      by_cases hself : exponentCode p = 21#5
      · rw [if_pos hself] at h
        rwa [if_neg (not_not_intro hself)]
      · rw [if_neg hself] at h
        rwa [if_pos hself]
  · obtain ⟨hlow, hhigh⟩ := codeIndex_mem (exponentCode p)
    obtain ⟨row, hi, hrow, hhi⟩ := exists_bucket hlow hhigh
    obtain ⟨hle, hlt⟩ := decodeResult_mem_bucket hm.1 hm.2 hrow hhi
    rw [if_neg (by omega), if_neg (by omega), if_neg (by omega)]
    exact encode_decodeResult_self (by omega) hmax hc hrow hhi hle hlt

/-! ### Every canonical word is emitted (30_encoding.md R40) -/

theorem exists_operand_of_sign {a : Bits64} (ha : signBit a = false) (s : Bool) :
    ∃ x, absBits x = a ∧ signBit x = s := by
  cases s with
  | false => exact ⟨a, absBits_of_nonneg ha, ha⟩
  | true => exact ⟨negate a, by rw [absBits_negate, absBits_of_nonneg ha], by rw [signBit_negate, ha]; rfl⟩

theorem thr_lt_next {d : Int} {row : DispatchRow} {hi : Bits64} (hrow : dispatchContents.row? d = some row)
    (hhi : dispatchContents.thr? (d + 1) = some hi) : row.thr < hi :=
  thr?_strictMono (lt_add_one d) (thr?_of_row? hrow) hhi

/-- The last magnitude of a bucket is rounded to 1000. -/
theorem quantize_predBits {d : Int} {row : DispatchRow} {hi : Bits64} (hrow : dispatchContents.row? d = some row)
    (hhi : dispatchContents.thr? (d + 1) = some hi) : quantize row (predBits hi) = 1000 := by
  refine forall_bucket (P := fun row hi => quantize row (predBits hi) = 1000) ?_ ?_ hrow hhi
  · decide
  · decide

/-- In every bucket some magnitude is rounded to each of 100..1000: the threshold to 100, the last to 1000, and the
decoding of the word to any other. -/
theorem exists_quantize_eq {p : Packed} (hmin : 100 ≤ magnitude p) (hmax : magnitude p ≤ 1000) {row : DispatchRow}
    {hi : Bits64} (hrow : dispatchContents.row? (codeIndex (exponentCode p)) = some row)
    (hhi : dispatchContents.thr? (codeIndex (exponentCode p) + 1) = some hi) :
    ∃ a, row.thr ≤ a ∧ a < hi ∧ quantize row a = magnitude p := by
  have hlt := thr_lt_next hrow hhi
  have hhi0 : hi ≠ 0#64 := by
    rintro rfl
    exact absurd hlt BitVec.not_lt_zero
  obtain hm | hm | hm : magnitude p = 100 ∨ magnitude p = 1000 ∨ (101 ≤ magnitude p ∧ magnitude p ≤ 999) := by omega
  · refine ⟨row.thr, BitVec.le_refl _, hlt, ?_⟩
    rw [hm]
    refine quantize_of_near hrow hhi (BitVec.le_refl _) hlt (by decide) ?_
    have hnear := near_thr (thr?_of_row? hrow)
    rwa [(ten_zpow_eq _).1] at hnear
  · exact ⟨predBits hi, (le_predBits_iff hhi0).mpr hlt, (le_predBits_iff hhi0).mp (BitVec.le_refl _),
      hm ▸ quantize_predBits hrow hhi⟩
  · obtain ⟨hle, hlt'⟩ := decodeResult_mem_bucket hm.1 hm.2 hrow hhi
    exact ⟨_, hle, hlt', quantize_of_near hrow hhi hle hlt' hmax (near_absBits_decodeResult (by omega))⟩

theorem exists_encodeResult_eq {p : Packed} (h : Canonical p) : ∃ x, encodeResult dispatchContents x = (p, true) := by
  obtain rfl | ⟨hmin, hmax, hc⟩ := h
  · exact ⟨0#64, by decide⟩
  obtain ⟨hlow, hhigh⟩ := codeIndex_mem (exponentCode p)
  obtain ⟨row, hi, hrow, hhi⟩ := exists_bucket hlow hhigh
  obtain ⟨a, hle, hlt, hquant⟩ := exists_quantize_eq hmin hmax hrow hhi
  obtain ⟨x, rfl, hs⟩ := exists_operand_of_sign (signBit_of_bucket hrow hhi hlt) (valueSign p)
  refine ⟨x, ?_⟩
  rw [encodeResult_of_bucket hrow hhi hle hlt, hquant, hs, ecode_eq_of_row? hc hrow, BitVec.ofInt_natCast, pack_fields]

/-- Settles O25: an emitted word is legal, hence canonical; and in each bucket each magnitude of 100..1000 is reached,
under either sign. -/
theorem emittedWordsAreTheCanonicalOnes : Obligations.EmittedWordsAreTheCanonicalOnes := by
  refine fun p => ⟨fun h => ?_, fun ⟨x, hx⟩ => ?_⟩
  · obtain ⟨x, hx⟩ := exists_encodeResult_eq h
    exact ⟨x, fun s hs => by rw [exec_encode_of_loaded hs, hx]⟩
  · have hexec := hx State.reset ⟨rfl, rfl⟩
    rw [exec_encode_of_loaded ⟨rfl, rfl⟩] at hexec
    simp only [Host.Outcome.next.injEq, State.mk.injEq, true_and, List.append_cancel_left_eq, List.cons.injEq,
      Completion.encoded.injEq, and_true] at hexec
    obtain ⟨hword, hok⟩ := hexec
    have hlegal := completionOf_encode_legal x
    rw [completionOf, hword, hok] at hlegal
    exact hlegal.2

end Sys2Proof.Machine

/-! Proofs about three-digit numbers: both readings of `b × 10^e` encode, and decode to within 0.001 (40_encode.md
R66). -/

namespace Sys2Proof.Machine

/-! ### Numbers that are exact in binary64 -/

theorem nearestEvenInt_of_dvd {n d : Nat} (hd : 0 < d) (h : d ∣ n) : nearestEvenInt n d = n / d := by
  have hrem : n % d = 0 := Nat.mod_eq_zero_of_dvd h
  simp only [nearestEvenInt, hrem]
  rw [if_neg (by omega)]

/-- A ratio that is a multiple of its last place is rounded to itself. -/
theorem f64_rn_of_dvd {num den : Nat} (hnum : 0 < num) (hden : 0 < den) (hfin : rnBits num den < 0x7FF0000000000000)
    (h : scaleUp den (lastPlace num den) ∣ scaleUp num (-lastPlace num den)) :
    f64 (withSign false (rn num den)) = num / den := by
  have hpos := scaleUp_pos (lastPlace num den) hden
  rw [← abs_f64_of_nonneg (signBit_withSign _ _), abs_f64_rn hnum hden false hfin, roundedSignificand,
    nearestEvenInt_of_dvd hpos h, Nat.cast_div h (by exact_mod_cast hpos.ne'), ← div_eq_scaleUp_div_scaleUp_mul]

/-- An integer of at most 53 bits times a power of two is a binary64 value. -/
theorem exists_f64_eq_mul_two_pow {n k : Nat} (hn : n < 2 ^ 53) (hk : k ≤ 100) :
    ∃ c, isFinite c = true ∧ f64 c = n * 2 ^ k := by
  obtain rfl | hpos := Nat.eq_zero_or_pos n
  · exact ⟨withSign false 0#63, by decide, by rw [f64_withSign_zero, Nat.cast_zero, zero_mul]⟩
  have hnum : 0 < n * 2 ^ k := Nat.mul_pos hpos (Nat.two_pow_pos k)
  have hlt : ((n * 2 ^ k : Nat) : ℚ) / (1 : Nat) < 2 ^ ((53 + k : Nat) : Int) := by
    rw [Nat.cast_one, div_one, zpow_natCast, pow_add]
    exact_mod_cast Nat.mul_lt_mul_of_pos_right hn (Nat.two_pow_pos k)
  have hlog : floorLog2 (n * 2 ^ k) 1 < (53 + k : Nat) :=
    (zpow_lt_zpow_iff_right₀ one_lt_two).mp ((floorLog2_spec hnum one_pos).1.trans_lt hlt)
  have hplace : lastPlace (n * 2 ^ k) 1 ≤ k := max_le (by omega) (by omega)
  have hrange : ((n * 2 ^ k : Nat) : ℚ) / (1 : Nat) < 2 ^ (1023 : Int) :=
    hlt.trans_le (zpow_le_zpow_right₀ one_le_two (by omega))
  refine ⟨_, isFinite_rn false one_pos hrange, ?_⟩
  rw [f64_rn_of_dvd hnum one_pos (rnBits_lt_of_lt hnum one_pos hrange)]
  · push_cast
    ring
  · obtain hneg | hpos := le_total (lastPlace (n * 2 ^ k) 1) 0
    · rw [scaleUp_of_nonpos 1 hneg]
      exact one_dvd _
    · rw [scaleUp_of_nonpos (n * 2 ^ k) (by omega), scaleUp, Nat.one_mul]
      exact (Nat.pow_dvd_pow 2 (by omega)).trans (Nat.dvd_mul_left _ _)

/-- Three digits (or 1000) followed by at most 13 zeros are a binary64 value. -/
theorem exists_f64_eq_mul_ten_zpow {n : Nat} {e : Int} (hn : n ≤ 1000) (hlow : 0 ≤ e) (hhigh : e ≤ 13) :
    ∃ c, isFinite c = true ∧ f64 c = n * 10 ^ e := by
  obtain ⟨k, rfl⟩ := Int.eq_ofNat_of_zero_le hlow
  have hk : k ≤ 13 := by omega
  have hsmall : n * 5 ^ k < 2 ^ 53 :=
    (Nat.mul_le_mul hn (Nat.pow_le_pow_right (by decide) hk)).trans_lt (by decide)
  obtain ⟨c, hfin, hc⟩ := exists_f64_eq_mul_two_pow hsmall (show k ≤ 100 by omega)
  refine ⟨c, hfin, ?_⟩
  rw [hc, zpow_natCast, Nat.cast_mul, Nat.cast_pow, mul_assoc, Nat.cast_ofNat, ← mul_pow]
  norm_num

/-! ### The two readings of a three-digit number -/

theorem ratio_eq_mul_ten_zpow (n : Nat) (e : Int) :
    ((n * 10 ^ e.toNat : Nat) : ℚ) / (10 ^ (-e).toNat : Nat) = n * 10 ^ e := by
  rw [zpow_eq_pow_div_pow (by norm_num : (10 : ℚ) ≠ 0)]
  push_cast
  ring

theorem signBit_bits64OfDecimal (n : Nat) (e : Int) : signBit (bits64OfDecimal false n e) = false :=
  signBit_withSign _ _

/-- The numbers in question lie far inside the range. -/
theorem mul_ten_zpow_mem {n : Nat} {e : Int} (hn : 1 ≤ n) (hn' : n ≤ 1000) (hlow : -17 ≤ e) (hhigh : e ≤ 13) :
    1 / 10 ^ 20 ≤ (n : ℚ) * 10 ^ e ∧ (n : ℚ) * 10 ^ e ≤ 10 ^ 18 := by
  have hn1 : (1 : ℚ) ≤ n := by exact_mod_cast hn
  have hn2 : (n : ℚ) ≤ 10 ^ 3 := by exact_mod_cast hn'
  have hpow : (10 : ℚ) ^ e ≤ 10 ^ (13 : Int) := zpow_le_zpow_right₀ (by norm_num) hhigh
  refine ⟨(ten_zpow_mem (by omega) (by omega)).1.trans (le_mul_of_one_le_left (by positivity) hn1), ?_⟩
  calc (n : ℚ) * 10 ^ e ≤ 10 ^ 3 * 10 ^ (13 : Int) := mul_le_mul hn2 hpow (by positivity) (by norm_num)
    _ ≤ 10 ^ 18 := by norm_num

theorem nearestEven_bits64OfDecimal {n : Nat} {e : Int} (hn : 1 ≤ n) (hn' : n ≤ 1000) (hlow : -17 ≤ e) (hhigh : e ≤ 13) :
    NearestEven (n * 10 ^ e) (bits64OfDecimal false n e) := by
  have hmax := (mul_ten_zpow_mem hn hn' hlow hhigh).2
  have h := nearestEven_withSign_rn false (num := n * 10 ^ e.toNat) (den := 10 ^ (-e).toNat)
    (Nat.pow_pos (by decide)) (by rw [ratio_eq_mul_ten_zpow]; exact lt_rnLimit_of_le (hmax.trans (by norm_num)))
  rwa [ratio_eq_mul_ten_zpow, signFactor_false, one_mul] at h

theorem nearestEven_ten_bits64OfDecimal {e : Int} (hlow : -17 ≤ e) (hhigh : e ≤ 13) :
    NearestEven (10 ^ e) (bits64OfDecimal false 1 e) := by
  have h := nearestEven_bits64OfDecimal le_rfl (by decide) hlow hhigh
  rwa [Nat.cast_one, one_mul] at h

/-- What both readings of a number `r` with power of ten `10^e` are: nonnegative, near it, and exact where the power
is an integer. -/
structure Reads (r : ℚ) (e : Int) (x : Bits64) : Prop where
  nonneg : signBit x = false
  near : Near r x
  f64_eq : 0 ≤ e → f64 x = r

section
variable {b : Nat} {e : Int} (hlow : -15 ≤ e) (hhigh : e ≤ 13) (hb1 : 1 ≤ b) (hb : b ≤ 999)
include hlow hhigh hb1 hb

/-- The correctly rounded number. -/
theorem reads_bits64OfDecimal : Reads (b * 10 ^ e) e (bits64OfDecimal false b e) := by
  have hround := nearestEven_bits64OfDecimal hb1 (by omega : b ≤ 1000) (by omega) hhigh
  obtain ⟨hmin, hmax⟩ := mul_ten_zpow_mem hb1 (by omega : b ≤ 1000) (by omega : -17 ≤ e) hhigh
  refine ⟨signBit_bits64OfDecimal _ _, near_of_nearestEven hround hmin (hmax.trans (by norm_num)), fun he => ?_⟩
  obtain ⟨c, hfin, hc⟩ := exists_f64_eq_mul_ten_zpow (by omega : b ≤ 1000) he hhigh
  exact f64_eq_of_nearestEven hround hfin hc

/-- The product of the two rounded factors, of which the digits are exact. -/
theorem reads_fmul : Reads (b * 10 ^ e) e (fmul (bits64OfNat b) (bits64OfDecimal false 1 e)) := by
  have hten := nearestEven_ten_bits64OfDecimal (by omega : -17 ≤ e) hhigh
  have hdigits := f64_bits64OfNat (m := b) (by omega)
  have hb1' : (1 : ℚ) ≤ b := by exact_mod_cast hb1
  have hb' : (b : ℚ) ≤ 1000 := by exact_mod_cast (by omega : b ≤ 1000)
  obtain ⟨-, hmax⟩ := mul_ten_zpow_mem hb1 (by omega : b ≤ 1000) (by omega : -17 ≤ e) hhigh
  obtain ⟨htmin, htmax⟩ := ten_zpow_mem (by omega : -20 ≤ e) (by omega)
  have herr := (abs_le.mp (abs_f64_sub_le_of_nearestEven hten htmin htmax)).2
  have hfactor : 0 ≤ f64 (bits64OfDecimal false 1 e) := f64_nonneg (signBit_bits64OfDecimal _ _)
  have hfinDigits : isFinite (bits64OfNat b) = true := by
    refine isFinite_rn false one_pos (lt_of_le_of_lt ?_ two_pow_200_lt)
    rw [Nat.cast_one, div_one]
    exact hb'.trans (by norm_num)
  have hround := nearestEven_fmul hfinDigits hten.finite (lt_rnLimit_of_le (by
    rw [hdigits, abs_of_nonneg (by positivity)]
    calc (b : ℚ) * f64 (bits64OfDecimal false 1 e) ≤ 1000 * (2 * 10 ^ 20) :=
          mul_le_mul hb' (by linarith) hfactor (by norm_num)
      _ ≤ 2 ^ 200 := by norm_num))
  rw [hdigits] at hround
  refine ⟨?_, near_of_nearestEven_mul hten hround hb1' ?_ hmax, fun he => ?_⟩
  · rw [signBit_fmul hfinDigits hten.finite, signBit_bits64OfNat, signBit_bits64OfDecimal]
    rfl
  · simpa using zpow_le_zpow_right₀ (a := (10 : ℚ)) (by norm_num) (by omega : -17 ≤ e)
  · obtain ⟨ten, hfinTen, htenEq⟩ := exists_f64_eq_mul_ten_zpow (n := 1) (by decide) he hhigh
    rw [Nat.cast_one, one_mul] at htenEq
    rw [f64_eq_of_nearestEven hten hfinTen htenEq] at hround
    obtain ⟨c, hfin, hc⟩ := exists_f64_eq_mul_ten_zpow (by omega : b ≤ 1000) he hhigh
    exact f64_eq_of_nearestEven hround hfin hc

end

/-! ### The round trip -/

/-- The least number of all is the least threshold, under both readings. -/
theorem bits64OfDecimal_least : bits64OfDecimal false 1 (-15) = 0x3CD203AF9EE75616#64 := by
  decide

theorem fmul_one_least : fmul (bits64OfNat 1) 0x3CD203AF9EE75616#64 = 0x3CD203AF9EE75616#64 := by
  decide

section
variable {b : Nat} {e : Int} {x : Bits64} (hx : Reads (b * 10 ^ e) e x)
include hx

theorem Reads.near_absBits : Near (b * 10 ^ e) (absBits x) := by
  rw [absBits_of_nonneg hx.nonneg]
  exact hx.near

/-- Every other number lies above the least threshold. -/
theorem Reads.least_threshold_le (hlow : -15 ≤ e) (hb1 : 1 ≤ b) (h : 2 ≤ b ∨ -14 ≤ e) :
    0x3CD203AF9EE75616#64 ≤ absBits x := by
  refine thr_le_of_near (d := -15) ?_ rfl hx.near_absBits
  obtain hb2 | he := h
  · have hb2' : (2 : ℚ) ≤ b := by exact_mod_cast hb2
    have hpow : (10 : ℚ) ^ (-15 : Int) ≤ 10 ^ e := zpow_le_zpow_right₀ (by norm_num) hlow
    have hprod := mul_le_mul hb2' hpow (by positivity) (by linarith)
    have hbase : (0 : ℚ) < 10 ^ (-15 : Int) := by positivity
    generalize (10 : ℚ) ^ (-15 : Int) = t at *
    linarith
  · have hb1' : (1 : ℚ) ≤ b := by exact_mod_cast hb1
    have hpow : (10 : ℚ) ^ (-15 + 1 : Int) ≤ 10 ^ e := zpow_le_zpow_right₀ (by norm_num) he
    have hprod := mul_le_mul hb1' hpow (by positivity) (by linarith)
    have hbase : (0 : ℚ) < 10 ^ (-15 : Int) := by positivity
    rw [zpow_add_one₀ (by norm_num)] at hprod
    generalize (10 : ℚ) ^ (-15 : Int) = t at *
    linarith

variable (hb1 : 1 ≤ b) (hb : b ≤ 999)
include hb1 hb

theorem Reads.lt_bound (hhigh : e ≤ 13) : absBits x < 0x4341C37937E08000#64 := by
  have hb1' : (1 : ℚ) ≤ b := by exact_mod_cast hb1
  have hb' : (b : ℚ) ≤ 999 := by exact_mod_cast hb
  have hpow : (10 : ℚ) ^ e ≤ 10 ^ (13 : Int) := zpow_le_zpow_right₀ (by norm_num) hhigh
  refine lt_thr_of_near (d := 16) (by positivity) ?_ rfl hx.near_absBits
  calc 1001 * ((b : ℚ) * 10 ^ e) ≤ 1001 * (999 * 10 ^ (13 : Int)) :=
        mul_le_mul_of_nonneg_left (mul_le_mul hb' hpow (by positivity) (by norm_num)) (by norm_num)
    _ ≤ 1000 * 10 ^ (16 : Int) := by norm_num

variable {d : Int} {row : DispatchRow} {hi : Bits64} (hrow : dispatchContents.row? d = some row)
  (hhi : dispatchContents.thr? (d + 1) = some hi)
include hrow hhi

/-- In its bucket a number of at most three digits is an integer of at most 1000 in units of `10^(d-2)`. -/
theorem Reads.exists_digits (hle : row.thr ≤ absBits x) (hlt : absBits x < hi) :
    ∃ n : Nat, 1 ≤ n ∧ n ≤ 1000 ∧ (n : ℚ) * 10 ^ (d - 2) = b * 10 ^ e := by
  have hb1' : (1 : ℚ) ≤ b := by exact_mod_cast hb1
  have hb' : (b : ℚ) ≤ 999 := by exact_mod_cast hb
  have hd : d - 2 ≤ e := by
    by_contra hgt
    have hpow : (10 : ℚ) ^ (e + 3) ≤ 10 ^ d := zpow_le_zpow_right₀ (by norm_num) (by omega)
    rw [zpow_add₀ (by norm_num)] at hpow
    have hpos : (0 : ℚ) < 10 ^ e := by positivity
    have hscaled := mul_le_mul_of_nonneg_right hb' hpos.le
    have hbelow := lt_thr_of_near (by positivity) (by norm_num at hpow; linarith) (thr?_of_row? hrow) hx.near_absBits
    exact BitVec.not_lt.mpr hle hbelow
  obtain ⟨k, hk⟩ := Int.le.dest hd
  have hunits : ((b * 10 ^ k : Nat) : ℚ) * 10 ^ (d - 2) = b * 10 ^ e := by
    rw [← hk, zpow_add₀ (by norm_num), zpow_natCast]
    push_cast
    ring
  refine ⟨b * 10 ^ k, Nat.mul_pos hb1 (Nat.pow_pos (by decide)), ?_, hunits⟩
  by_contra hgt
  have hgt' : (1001 : ℚ) ≤ (b * 10 ^ k : Nat) := by exact_mod_cast not_le.mp hgt
  have hscaled := mul_le_mul_of_nonneg_right hgt' (by positivity : (0 : ℚ) ≤ 10 ^ (d - 2))
  have habove := thr_le_of_near (r := b * 10 ^ e) (by rw [(ten_zpow_eq d).2, ← hunits]; linarith) hhi hx.near_absBits
  exact BitVec.not_lt.mpr habove hlt

end

/-- The decoding of the word of a number's digits: near it, and exact where the unit is an integer. -/
theorem decodeResult_of_digits {d : Int} {row : DispatchRow} (hrow : dispatchContents.row? d = some row) {n : Nat}
    (hn1 : 1 ≤ n) (hn : n ≤ 1000) :
    Near (n * 10 ^ (d - 2)) (decodeResult multContents (pack (BitVec.ofNat 10 n) false row.ecode)) ∧
    (2 ≤ d → f64 (decodeResult multContents (pack (BitVec.ofNat 10 n) false row.ecode)) = n * 10 ^ (d - 2)) := by
  generalize hp : pack (BitVec.ofNat 10 n) false row.ecode = p
  have hmag : magnitude p = n := by rw [← hp, magnitude_pack, toNat_ofNat_ten hn]
  have hcode : codeIndex (exponentCode p) = d := by rw [← hp, exponentCode_pack, codeIndex_ecode hrow]
  have hsign : signBit (decodeResult multContents p) = false := by rw [signBit_decodeResult, ← hp, valueSign_pack]
  have hnear := near_absBits_decodeResult (p := p) (by omega)
  have hround := nearestEven_absBits_decodeResult p
  have hmult := nearestEven_multiplier p
  rw [absBits_of_nonneg hsign, hmag] at hnear hround
  rw [hcode] at hnear hmult
  refine ⟨hnear, fun hd => ?_⟩
  have hd15 := (decade_of_row? hrow).2
  obtain ⟨ten, hfinTen, htenEq⟩ :=
    exists_f64_eq_mul_ten_zpow (n := 1) (e := d - 2) (by decide) (by omega) (by omega)
  rw [Nat.cast_one, one_mul] at htenEq
  rw [f64_eq_of_nearestEven hmult hfinTen htenEq] at hround
  obtain ⟨c, hfin, hc⟩ := exists_f64_eq_mul_ten_zpow hn (by omega : 0 ≤ d - 2) (by omega)
  exact f64_eq_of_nearestEven hround hfin hc

section
variable {b : Nat} {e : Int} {x y : Bits64} (hx : Reads (b * 10 ^ e) e x)
include hx

/-- Below `10^11` two values near the same number are near each other. -/
theorem Reads.abs_sub_lt_of_small (hb : b ≤ 999) (he : e ≤ 8) (hy : Near (b * 10 ^ e) y) : |f64 y - f64 x| < 1 / 1000 := by
  have hb' : (b : ℚ) ≤ 999 := by exact_mod_cast hb
  have hpow : (10 : ℚ) ^ e ≤ 10 ^ (8 : Int) := zpow_le_zpow_right₀ (by norm_num) he
  have hsmall : (b : ℚ) * 10 ^ e ≤ 10 ^ 11 := by
    calc (b : ℚ) * 10 ^ e ≤ 999 * 10 ^ (8 : Int) := mul_le_mul hb' hpow (by positivity) (by norm_num)
      _ ≤ 10 ^ 11 := by norm_num
  obtain ⟨hx1, hx2⟩ := hx.near.bounds
  obtain ⟨hy1, hy2⟩ := hy.bounds
  exact abs_lt.mpr ⟨by linarith, by linarith⟩

/-- A large number lies in a bucket whose unit is an integer. -/
theorem Reads.two_le_of_large (hb1 : 1 ≤ b) (he : 9 ≤ e) {d : Int} {hi : Bits64}
    (hhi : dispatchContents.thr? (d + 1) = some hi) (hlt : absBits x < hi) : 2 ≤ d := by
  by_contra hd
  have hb1' : (1 : ℚ) ≤ b := by exact_mod_cast hb1
  have hpow : (10 : ℚ) ^ (d + 1) * 10 ≤ 10 ^ e := by
    rw [← zpow_add_one₀ (by norm_num)]
    exact zpow_le_zpow_right₀ (by norm_num) (by omega)
  have hscaled := le_mul_of_one_le_left (by positivity : (0 : ℚ) ≤ 10 ^ e) hb1'
  have hpos : (0 : ℚ) < 10 ^ (d + 1) := by positivity
  exact BitVec.not_lt.mpr (thr_le_of_near (by linarith) hhi hx.near_absBits) hlt

/-- A reading at or above the least threshold encodes, and decodes to within 0.001. -/
theorem Reads.roundTrip (hb1 : 1 ≤ b) (hb : b ≤ 999) (hhigh : e ≤ 13) (hle : 0x3CD203AF9EE75616#64 ≤ absBits x) :
    ∃ p : Packed, encodeResult dispatchContents x = (p, true) ∧
      |f64 (decodeResult multContents p) - f64 x| < 1 / 1000 := by
  obtain ⟨d, row, hi, hrow, hhi, hmin, hmax, -⟩ :=
    bucketTestsSelectTheUniqueBucket (absBits x) hle (hx.lt_bound hb1 hb hhigh)
  obtain ⟨n, hn1, hn, hunits⟩ := hx.exists_digits hb1 hb hrow hhi hmin hmax
  have hnear := hx.near_absBits
  obtain ⟨hdecode, hexact⟩ := decodeResult_of_digits hrow hn1 hn
  rw [← hunits] at hnear
  rw [hunits] at hdecode hexact
  refine ⟨_, encodeResult_of_near hrow hhi hmin hmax hn hnear, ?_⟩
  rw [hx.nonneg]
  obtain he | he : e ≤ 8 ∨ 9 ≤ e := by omega
  · exact hx.abs_sub_lt_of_small hb he hdecode
  · rw [hexact (hx.two_le_of_large hb1 he hhi hmax), hx.f64_eq (by omega), sub_self, abs_zero]
    norm_num

end

/-- Settles O37: both readings are near the number, so ENCODE keeps its digits and the bucket's power of ten; DECODE
rounds the same number again, exactly where a relative error would not do. -/
theorem threeDigitNumbersRoundTrip : Obligations.ThreeDigitNumbersRoundTrip := by
  intro e b hlow hhigh hb1 hb x hx
  have hreads : Reads (b * 10 ^ e) e x := by
    simp only [List.mem_cons, List.not_mem_nil, or_false] at hx
    obtain rfl | rfl := hx
    · exact reads_fmul hlow hhigh hb1 hb
    · exact reads_bits64OfDecimal hlow hhigh hb1 hb
  refine hreads.roundTrip hb1 hb hhigh ?_
  obtain h | ⟨rfl, rfl⟩ : (2 ≤ b ∨ -14 ≤ e) ∨ (b = 1 ∧ e = -15) := by omega
  · exact hreads.least_threshold_le hlow hb1 h
  · simp only [bits64OfDecimal_least, fmul_one_least, List.mem_cons, List.not_mem_nil, or_false, or_self] at hx
    rw [absBits_of_nonneg hreads.nonneg, hx]
    exact BitVec.le_refl _

end Sys2Proof.Machine
